-- ==== Sys2Proof/Word.lean ====
section
/-! DEFINITION. The words of the block: port lanes, bytes and the narrow identifiers of 00_scope.md rule R7. -/

namespace Sys2Proof

/-- A 16-bit word: the command word (R46), a pair of raw byte lanes (R26), one field-value lane (R27). -/
abbrev Word := BitVec 16

/-- One byte of a device register (R30, R33). -/
abbrev Byte := BitVec 8

/-- A register address of one profile's space, 0 to 255 (R7, R30). -/
abbrev Addr := BitVec 8

/-- The 2-bit access context (R15, R31). -/
abbrev Ctx := BitVec 2

/-- A register id as `reg_out[9:0]` carries it (R28). -/
abbrev RegId := BitVec 10

/-- The sixteen 16-bit lanes of the field-value ports (R27, R28). -/
abbrev Lanes := Vector Word 16

/-- All sixteen lanes 0. -/
def Lanes.zero : Lanes := Vector.replicate 16 0

end Sys2Proof
end

