-- ==== Sys2Proof/Syntax.lean ====
section
/-! DEFINITION. The commands of 30_encoding.md rule R47 and the assembler terms of rule R53. -/

namespace Sys2Proof

/-- The two controller profiles (R2): `PS` is number 0, `PC` is number 1. -/
inductive Profile where
  | ps
  | pc
  deriving DecidableEq, Repr

/-- The command word's profile bit (R46, bit 12). -/
def Profile.bit : Profile → Bool
  | .ps => false
  | .pc => true

/-- The profile a bit names (R2, R46). -/
def Profile.ofBit (b : Bool) : Profile := if b then .pc else .ps

/-- The five commands, one constructor per row of spec/opcode_table.json (R47).
Every operand is as wide as its field of the command word (R46, R49), so every term is well formed. -/
inductive Instr where
  /-- `RLOOK`, R57. -/
  | rlook (p : Profile) (ctx : Ctx) (addr : Addr)
  /-- `RDEC`, R58. -/
  | rdec (p : Profile) (ctx : Ctx) (addr : Addr)
  /-- `RENC`, R64. -/
  | renc (p : Profile) (ctx : Ctx) (addr : Addr)
  /-- `KEV.S`, R74. -/
  | kevS
  /-- `KEV.C`, R80. -/
  | kevC
  deriving DecidableEq, Repr

/-- The location operand of an assembler line (R53): a context and an address as numbers, or with a
register name in the address's place. DESIGN CHOICE (notes/assumptions/8.md): R53 does not say whether
the context is still written beside a name that stands for a pair, so both forms are terms. -/
inductive AsmLoc where
  /-- `<ctx>, <addr>` with a number. -/
  | pair (ctx addr : Nat)
  /-- `<ctx>, <addr>` with a register name. -/
  | named (ctx : Nat) (reg : String)
  /-- A register name alone, for the whole pair. -/
  | name (reg : String)
  deriving DecidableEq, Repr

/-- An assembler line's command part (R53); `kev` is the one pseudo-instruction. -/
inductive Asm where
  | rlook (p : Profile) (loc : AsmLoc)
  | rdec (p : Profile) (loc : AsmLoc)
  | renc (p : Profile) (loc : AsmLoc)
  | kevS
  | kevC
  | kev (p : Profile)
  deriving DecidableEq, Repr

end Sys2Proof
end

