-- ==== Sys2Proof/WellFormed.lean ====
section
/-! DEFINITION. Well-formed assembler terms (30_encoding.md rule R53).
A command (`Instr`) needs no check: its operands are bit vectors of their fields' widths (R46).
The checks of a CONFIGURATION (10_state.md rule R17) stand in Sys2Proof/Machine/ConfigCheck.lean. -/

namespace Sys2Proof

/-- R53: `<ctx>` is 0 to 3. -/
def AsmLoc.ctxOk : AsmLoc → Bool
  | .pair ctx _ => decide (ctx ≤ 3)
  | .named ctx _ => decide (ctx ≤ 3)
  | .name _ => true

/-- R53: `<addr>` is 0 to 255. -/
def AsmLoc.addrOk : AsmLoc → Bool
  | .pair _ addr => decide (addr ≤ 255)
  | .named _ _ => true
  | .name _ => true

/-- R53: a location operand is in range. Whether a register name is mapped is the configuration's
matter and is settled when the line is assembled. -/
def AsmLoc.wf (l : AsmLoc) : Bool := l.ctxOk && l.addrOk

/-- R53: an assembler line's operands are in range. -/
def Asm.wf : Asm → Bool
  | .rlook _ l => l.wf
  | .rdec _ l => l.wf
  | .renc _ l => l.wf
  | .kevS => true
  | .kevC => true
  | .kev _ => true

end Sys2Proof
end

