-- ==== Sys2Proof/Decode.lean ====
section
/-! DEFINITION. The command word: decoder (30_encoding.md rule R48), encoder (R46, R47), and the
host's entry `decodeTableWord`. -/

namespace Sys2Proof

/-- Why a word is in the illegal space of R52. -/
inductive IllegalWord where
  /-- `rsv != 0b00`, the first check of R48. -/
  | reservedBits
  /-- `op` is 0b000, 0b101, 0b110 or 0b111. -/
  | opcode
  /-- `op = 0b100` with `ctx != 0b00` or `addr != 0x00`. -/
  | keyEventOperand
  deriving DecidableEq, Repr

/-- `cmd[15:13]` (R46). -/
def opField (cmd : Word) : BitVec 3 := cmd.extractLsb' 13 3

/-- `cmd[12]` as a profile (R46, R49). -/
def profileField (cmd : Word) : Profile := Profile.ofBit (cmd.getLsbD 12)

/-- `cmd[11:10]` (R46, R49). -/
def ctxField (cmd : Word) : Ctx := cmd.extractLsb' 10 2

/-- `cmd[9:8]` (R46). -/
def rsvField (cmd : Word) : BitVec 2 := cmd.extractLsb' 8 2

/-- `cmd[7:0]` (R46, R49). -/
def addrField (cmd : Word) : Addr := cmd.extractLsb' 0 8

/-- R48: the decoder, total on all 65536 words. -/
def decode (cmd : Word) : Except IllegalWord Instr :=
  if rsvField cmd ≠ 0 then .error .reservedBits
  else if opField cmd = 0b001#3 then .ok (.rlook (profileField cmd) (ctxField cmd) (addrField cmd))
  else if opField cmd = 0b010#3 then .ok (.rdec (profileField cmd) (ctxField cmd) (addrField cmd))
  else if opField cmd = 0b011#3 then .ok (.renc (profileField cmd) (ctxField cmd) (addrField cmd))
  else if opField cmd = 0b100#3 then
    if ctxField cmd ≠ 0 ∨ addrField cmd ≠ 0 then .error .keyEventOperand
    else match profileField cmd with
      | .ps => .ok .kevS
      | .pc => .ok .kevC
  else .error .opcode

/-- The single format of R46, its reserved bits 0. -/
def packWord (op : BitVec 3) (p : Profile) (ctx : Ctx) (addr : Addr) : Word :=
  op ++ BitVec.ofBool p.bit ++ ctx ++ 0b00#2 ++ addr

/-- The word of a command (R46, R47). -/
def encode : Instr → Word
  | .rlook p ctx addr => packWord 0b001#3 p ctx addr
  | .rdec p ctx addr => packWord 0b010#3 p ctx addr
  | .renc p ctx addr => packWord 0b011#3 p ctx addr
  | .kevS => packWord 0b100#3 .ps 0 0
  | .kevC => packWord 0b100#3 .pc 0 0

/-- The command of an opcode-table row's word. Every row is one 16-bit word (R51), so a row of more
bits has no command; the bits above `nbits` are 0. -/
def decodeTableWord (nbits w : Nat) : Option Instr :=
  if nbits ≤ 16 then (decode (BitVec.ofNat 16 (w % 2 ^ nbits))).toOption else none

end Sys2Proof
end

