-- ==== Sys2Proof/Config.lean ====
section
/-! DEFINITION. The configuration record `Cfg` of 00_scope.md rule R7 as plain data. It is a
parameter of the block: every value the spec calls OPEN is a field here and none is fixed
(93_implementation_defined.md section 2). -/

namespace Sys2Proof

/-- One value per profile: the spec's `X[P]`. -/
structure PerProfile (α : Type) where
  ps : α
  pc : α
  deriving DecidableEq, Repr

/-- `X[P]`. -/
def PerProfile.get {α : Type} (x : PerProfile α) : Profile → α
  | .ps => x.ps
  | .pc => x.pc

/-- `X[P] <- v`. -/
def PerProfile.set {α : Type} (x : PerProfile α) (p : Profile) (v : α) : PerProfile α :=
  match p with
  | .ps => { x with ps := v }
  | .pc => { x with pc := v }

/-- A field's kind (R14). `enum map` lists the logical-state index of code 0, 1, 2, …: this list is
the field's entry of `Cfg.ENUM_MAPS` (R22, R60). -/
inductive FieldKind where
  | num
  | enum (map : List Word)
  | rsv
  deriving DecidableEq, Repr

/-- A field of a layout (R13): it occupies bits `off + w - 1` down to `off`. -/
structure Field where
  name : String
  off  : Nat
  w    : Nat
  kind : FieldKind
  deriving DecidableEq, Repr

/-- A layout `(W, fields)` (R13), fields listed from the most significant bit down. -/
structure Layout where
  width  : Nat
  fields : List Field
  deriving DecidableEq, Repr

/-- One entry of `Cfg.REG_TABLE` (R16): a register id with the register's name and layout. -/
structure RegEntry where
  id     : RegId
  name   : String
  layout : Layout
  deriving DecidableEq, Repr

/-- One entry of `Cfg.ADDRESS_MAP[P]` (R15): (address, access context) to register id. -/
structure MapEntry where
  addr : Addr
  ctx  : Ctx
  reg  : RegId
  deriving DecidableEq, Repr

/-- `Cfg.PAIR_ORDER[P]` (R34): which byte of a pair holds bits 15:8. -/
inductive PairOrder where
  /-- `LOW_ADDR_HIGH`: the byte at A holds bits 15:8. -/
  | lowAddrHigh
  /-- `LOW_ADDR_LOW`: the byte at A holds bits 7:0. -/
  | lowAddrLow
  deriving DecidableEq, Repr

/-- `Cfg.PAIR_REGS` (R7, R21): the two 16-bit registers and the profile that reaches them. -/
structure PairRegs where
  profile : Profile
  first   : RegId
  second  : RegId
  deriving DecidableEq, Repr

/-- What a tagged column may be (R73); the type has no third value, so R73's condition on
`Cfg.COL_ROLE` holds of every record. -/
inductive TaggedRole where
  | sfkey
  | dedicated
  deriving DecidableEq, Repr

/-- `Cfg.COL_ROLE` (R73): the roles of columns 12, 13 and 14 of profile PS. -/
structure ColRole where
  c12 : TaggedRole
  c13 : TaggedRole
  c14 : TaggedRole
  deriving DecidableEq, Repr

/-- `Cfg.EVT_C` (R79): the event-record layout of profile PC. -/
structure EvtC where
  relBit : Nat
  relVal : Bool
  rowOff : Nat
  rowW   : Nat
  colOff : Nat
  colW   : Nat
  deriving DecidableEq, Repr

/-- The configuration (R7). `ENUM_MAPS` stands in the `enum` kinds of the layouts (a view of it in
Machine/ConfigCheck.lean). `irqstLayout` is `IRQST_LAYOUT` (R20); that the table's registers named
IRQST have it is a check of well-formedness (notes/assumptions/7.md). -/
structure Cfg where
  addressMap : PerProfile (List MapEntry)
  regTable   : List RegEntry
  pairRegs   : PairRegs
  pairOrder  : PerProfile PairOrder
  irqstLayout : Layout
  colRole    : ColRole
  evtC       : EvtC
  countW     : Nat
  busAddrDs  : PerProfile Byte
  addrShift  : PerProfile Bool
  deriving DecidableEq, Repr

end Sys2Proof
end

