-- ==== Sys2Proof/Machine/TestConfig.lean ====
section
/-! DEFINITION. The test configuration `TC` of 95_test_vectors.md section 0, and the fixed layouts of
10_state.md rules R16, R18 and R19. TC's addresses, ids and all but the KBDSIZE and EVTCODE layouts
are the spec's own examples and no device data; `State.reset` holds TC for want of any other value
(notes/assumptions/1.md) and no statement rests on it. -/

namespace Sys2Proof.Machine

/-- R16: a flat register's layout, one `NUM` field named `VALUE` over the whole width. -/
def flatLayout (width : Nat) : Layout := ⟨width, [⟨"VALUE", 0, width, .num⟩]⟩

/-- R18: the keypad-size register KBDSIZE. -/
def kbdsizeLayout : Layout := ⟨8, [⟨"ROWSIZE", 4, 4, .num⟩, ⟨"COLSIZE", 0, 4, .num⟩]⟩

/-- R19: the key-event code register EVTCODE of profile PS. -/
def evtcodeLayout : Layout :=
  ⟨8, [⟨"RELEASE", 7, 1, .num⟩, ⟨"ROW", 4, 3, .num⟩, ⟨"COLUMN", 0, 4, .num⟩]⟩

/-- TC's IRQST layout. -/
def tcIrqstLayout : Layout :=
  ⟨8, [⟨"POWER_FAIL", 7, 1, .num⟩, ⟨"KEYBOARD", 6, 1, .num⟩, ⟨"", 3, 3, .rsv⟩,
    ⟨"TIMER", 2, 1, .num⟩, ⟨"GPIO", 1, 1, .num⟩, ⟨"", 0, 1, .rsv⟩]⟩

/-- TC's PULLCFG layout: codes 0 NONE, 1 DOWN, 2 UP, 3 NONE again. -/
def tcPullcfgLayout : Layout := ⟨8, [⟨"PULL", 6, 2, .enum [0, 1, 2, 0]⟩, ⟨"", 0, 6, .rsv⟩]⟩

/-- TC's PAIRA layout. -/
def tcPairaLayout : Layout :=
  ⟨16, [⟨"HI", 12, 4, .num⟩, ⟨"MID", 4, 8, .num⟩, ⟨"", 0, 4, .rsv⟩]⟩

/-- The configuration TC. -/
def testConfig : Cfg where
  addressMap := {
    ps := [⟨0x10, 0, 1⟩, ⟨0x11, 0, 2⟩, ⟨0x12, 0, 3⟩, ⟨0x20, 0, 4⟩, ⟨0x20, 1, 5⟩, ⟨0x30, 0, 6⟩]
    pc := [⟨0x40, 0, 7⟩, ⟨0x42, 0, 8⟩, ⟨0x50, 0, 9⟩] }
  regTable := [
    ⟨1, "KBDSIZE", kbdsizeLayout⟩, ⟨2, "EVTCODE", evtcodeLayout⟩, ⟨3, "IRQST", tcIrqstLayout⟩,
    ⟨4, "SLAVEADDR", flatLayout 8⟩, ⟨5, "MFGCODE", flatLayout 8⟩, ⟨6, "PULLCFG", tcPullcfgLayout⟩,
    ⟨7, "PAIRA", tcPairaLayout⟩, ⟨8, "PAIRB", flatLayout 16⟩, ⟨9, "PCSTATUS", flatLayout 8⟩]
  pairRegs := ⟨.pc, 7, 8⟩
  pairOrder := ⟨.lowAddrHigh, .lowAddrHigh⟩
  irqstLayout := tcIrqstLayout
  colRole := ⟨.sfkey, .dedicated, .dedicated⟩
  evtC := ⟨7, true, 4, 3, 0, 4⟩
  countW := 5
  busAddrDs := ⟨0x88, 0x34⟩
  addrShift := ⟨true, false⟩

end Sys2Proof.Machine
end

