-- ==== Sys2Proof/Machine/ConfigCheck.lean ====
section
/-! DEFINITION. When a configuration is well formed: 10_state.md rule R17, one check per item (a) to
(h), that the association lists denote functions, and what R15, R20, R22 and R23 say of every
configuration. A view of `ENUM_MAPS` and the bus address constant of R23. -/

namespace Sys2Proof.Machine

/-- A reserved field has no lane (R14). -/
def isRsv (f : Field) : Bool := decide (f.kind = .rsv)

/-- Bit `b` of the register value belongs to field `f` (R13). -/
def holdsBit (f : Field) (b : Nat) : Bool := decide (f.off ≤ b) && decide (b < f.off + f.w)

/-- R17 (a): the width is 8 or 16, there is a field, each field is at least one bit and fits. -/
def layoutSizesOk (L : Layout) : Bool :=
  (L.width == 8 || L.width == 16) && !L.fields.isEmpty &&
    L.fields.all (fun f => decide (1 ≤ f.w) && decide (f.off + f.w ≤ L.width))

/-- R17 (b): the fields are pairwise disjoint and together cover every bit. -/
def layoutTiles (L : Layout) : Bool :=
  decide (L.fields.Pairwise (fun f g => f.off + f.w ≤ g.off ∨ g.off + g.w ≤ f.off)) &&
    (List.range L.width).all (fun b => L.fields.any (fun f => holdsBit f b))

/-- R17 (c): along the list the offsets strictly decrease. -/
def layoutDescends (L : Layout) : Bool :=
  decide (L.fields.Pairwise (fun f g => g.off < f.off))

/-- R17 (d): an `ENUM` map gives a state for each code `0 .. 2^w - 1` and for no other. -/
def enumTotal (f : Field) : Bool :=
  match f.kind with
  | .num => true
  | .rsv => true
  | .enum map => map.length == 2 ^ f.w

/-- R17 (a) to (d) of one layout. -/
def layoutOk (L : Layout) : Bool :=
  layoutSizesOk L && layoutTiles L && layoutDescends L && L.fields.all enumTotal

/-- R17 (a) to (d): every layout of the table. -/
def layoutsOk (c : Cfg) : Bool := c.regTable.all (fun r => layoutOk r.layout)

/-- R15, R16: an address map is a partial function of (address, context), the table one of the id. -/
def keysDistinct (c : Cfg) : Bool :=
  decide (c.addressMap.ps.Pairwise (fun a b => ¬ (a.addr = b.addr ∧ a.ctx = b.ctx))) &&
    decide (c.addressMap.pc.Pairwise (fun a b => ¬ (a.addr = b.addr ∧ a.ctx = b.ctx))) &&
    decide (c.regTable.Pairwise (fun a b => a.id ≠ b.id))

/-- `Cfg.REG_TABLE[id]` (R16). -/
def entryOf (c : Cfg) (id : RegId) : Option RegEntry := c.regTable.find? (fun r => r.id == id)

/-- The layout `Cfg.REG_TABLE[id].layout` (R16, R55). -/
def layoutOf (c : Cfg) (id : RegId) : Option Layout := (entryOf c id).map (·.layout)

/-- The registers profile `p`'s map holds, a register once per pair that reaches it (R15, R16). -/
def registersOf (c : Cfg) (p : Profile) : List RegEntry :=
  (c.addressMap.get p).filterMap (fun e => entryOf c e.reg)

/-- The registers of both maps. -/
def registers (c : Cfg) : List RegEntry := registersOf c .ps ++ registersOf c .pc

/-- R15: "names are unique within one profile": registers of one map with one name are one register. -/
def namesUnique (c : Cfg) (p : Profile) : Bool :=
  decide ((registersOf c p).Pairwise (fun r r' => r.name = r'.name → r.id = r'.id))

/-- R17 (e): every id an address map names is in the table. -/
def idsListed (c : Cfg) : Bool :=
  (c.addressMap.ps ++ c.addressMap.pc).all (fun e => (layoutOf c e.reg).isSome)

/-- `id` is one of `Cfg.PAIR_REGS` (R21). -/
def isPairReg (c : Cfg) (id : RegId) : Bool := id == c.pairRegs.first || id == c.pairRegs.second

/-- The other profile. -/
def otherProfile : Profile → Profile
  | .ps => .pc
  | .pc => .ps

/-- Profile `p`'s map reaches the register `id`. -/
def reaches (c : Cfg) (p : Profile) (id : RegId) : Bool :=
  (c.addressMap.get p).any (fun e => e.reg == id)

/-- R17 (f), R21: the two registers of `Cfg.PAIR_REGS` are in the table, they and no others are 16 bits
wide, their profile's map reaches both, and the other profile's map neither. -/
def pairRegsOk (c : Cfg) : Bool :=
  c.pairRegs.first != c.pairRegs.second &&
    (layoutOf c c.pairRegs.first).isSome && (layoutOf c c.pairRegs.second).isSome &&
    reaches c c.pairRegs.profile c.pairRegs.first && reaches c c.pairRegs.profile c.pairRegs.second &&
    c.regTable.all (fun r => r.layout.width == (if isPairReg c r.id then 16 else 8)) &&
    (c.addressMap.get (otherProfile c.pairRegs.profile)).all (fun e => !isPairReg c e.reg)

/-- R17 (g): a 16-bit register's base address is at most 254. DESIGN CHOICE (notes/assumptions/16.md):
the rules do not say whether a map may hold an entry at A+1 under the context of a pair based at A,
another register or the pair again; the model admits it, and each entry's address is a base. -/
def pairBasesOk (c : Cfg) : Bool :=
  (c.addressMap.ps ++ c.addressMap.pc).all (fun e => !isPairReg c e.reg || decide (e.addr ≤ 254#8))

/-- Some register of the list is named `n`, and each one so named has the layout `L`. -/
def presentAs (rs : List RegEntry) (n : String) (L : Layout) : Bool :=
  rs.any (fun r => r.name == n) && rs.all (fun r => r.name != n || decide (r.layout = L))

/-- R17 (h), first clause: the layouts of R18 and R19 are present as given. EVTCODE is "the key-event
code register of profile PS", so PS's map holds it; KBDSIZE's profile is open (R18). DESIGN CHOICE
(notes/assumptions/14.md): where both maps hold a KBDSIZE, each has R18's layout. -/
def fixedLayoutsPresent (c : Cfg) : Bool :=
  presentAs (registers c) "KBDSIZE" kbdsizeLayout &&
    presentAs (registersOf c .ps) "EVTCODE" evtcodeLayout

/-- Two bit ranges `[off + w - 1 : off]` share no bit. -/
def rangesApart (off w off' w' : Nat) : Bool := decide (off + w ≤ off') || decide (off' + w' ≤ off)

/-- R17 (h), R79: the event record of profile PC lies within one byte, its fields apart. -/
def evtCOk (e : EvtC) : Bool :=
  decide (e.relBit ≤ 7) && decide (1 ≤ e.rowW) && decide (1 ≤ e.colW) &&
    decide (e.rowOff + e.rowW ≤ 8) && decide (e.colOff + e.colW ≤ 8) &&
    rangesApart e.relBit 1 e.rowOff e.rowW && rangesApart e.relBit 1 e.colOff e.colW &&
    rangesApart e.rowOff e.rowW e.colOff e.colW

/-- R17 (h), R79: `Cfg.COUNT_W` is 1 to 8. -/
def countWOk (n : Nat) : Bool := decide (1 ≤ n) && decide (n ≤ 8)

/-- R17 (h): exactly one profile has `Cfg.ADDR_SHIFT[P]` true. -/
def oneShift (s : PerProfile Bool) : Bool := s.ps != s.pc

/-- R20, D35: the layout is 8 bits wide and "must hold the four flags", each a one-bit `NUM` field. -/
def irqstFlagsOk (L : Layout) : Bool :=
  L.width == 8 && ["GPIO", "TIMER", "KEYBOARD", "POWER_FAIL"].all (fun n =>
    L.fields.any (fun f => f.name == n && f.w == 1 && decide (f.kind = .num)))

/-- R20: a map holds IRQST, its layout is `Cfg.IRQST_LAYOUT`, and that layout holds the flags. DESIGN
CHOICE (notes/assumptions/14.md): its profile is not in the source, so either map may hold it, and
where both hold a register of that name each has this one layout. -/
def irqstOk (c : Cfg) : Bool :=
  presentAs (registers c) "IRQST" c.irqstLayout && irqstFlagsOk c.irqstLayout

/-- A two-bit enumerated field two codes of which give one state (R22, R60: an alias). -/
def isAliasField (f : Field) : Bool :=
  match f.kind with
  | .num => false
  | .rsv => false
  | .enum map => f.w == 2 && !decide map.Nodup

/-- R22: at least one register holds such a field (DEDUCED, notes/assumptions/5.md). -/
def aliasFieldPresent (c : Cfg) : Bool :=
  (registers c).any (fun r => r.layout.fields.any isAliasField)

/-- R23: `bus_addr7[P]` is "a 7-bit value", so a datasheet address that is not shifted is below 128. -/
def busAddrFits (c : Cfg) (p : Profile) : Bool :=
  c.addrShift.get p || decide ((c.busAddrDs.get p).toNat < 128)

/-- The configuration is well formed: R17, and what R15, R20, R22 and R23 say of every configuration
(notes/assumptions/5.md). The condition on `Cfg.COL_ROLE` (R73) is its type. -/
def cfgWf (c : Cfg) : Bool :=
  layoutsOk c && keysDistinct c && idsListed c && pairRegsOk c && pairBasesOk c &&
    fixedLayoutsPresent c && evtCOk c.evtC && countWOk c.countW && oneShift c.addrShift &&
    namesUnique c .ps && namesUnique c .pc && irqstOk c && aliasFieldPresent c &&
    busAddrFits c .ps && busAddrFits c .pc

/-- `Cfg.ENUM_MAPS` (R7, R22): the enumerated fields of the table, each with its register's id, its
name and its map. -/
def enumMaps (c : Cfg) : List (RegId × String × List Word) :=
  c.regTable.flatMap (fun r => r.layout.fields.filterMap (fun f =>
    match f.kind with
    | .num => none
    | .rsv => none
    | .enum map => some (r.id, f.name, map)))

/-- R23: `bus_addr7[P]`, configuration the host's transport uses and no command reads. Of a well-formed
configuration no bit is dropped (`busAddr7_toNat` in Laws/Layout.lean). -/
def busAddr7 (c : Cfg) (p : Profile) : BitVec 7 :=
  (if c.addrShift.get p then c.busAddrDs.get p >>> 1 else c.busAddrDs.get p).setWidth 7

end Sys2Proof.Machine
end

