-- ==== Sys2Proof/Machine/State.lean ====
section
/-! DEFINITION. The state of the block: its configuration (10_state.md R11 to R23), its key-event
decoder state (R24), its ports (R26 to R28) and the commands the host has yet to issue (R41, R109). -/

namespace Sys2Proof.Machine

/-- `kfd_state[P]` (R24): `IDLE`, "no event pending", or `READING`, "more may follow". -/
inductive KfdState where
  | idle
  | reading
  deriving DecidableEq, Repr

/-- The input ports (R26, R27), sampled once per command. One-wire ports are `Bool`, true being 1. -/
structure Inputs where
  cmd      : Word
  rawIn    : Word
  bvIn     : BitVec 2
  moreIn   : Bool
  lostIn   : Bool
  countIn  : Byte
  busErrIn : Bool
  fvIn     : Lanes
  deriving DecidableEq, Repr

/-- Every input port 0. -/
def Inputs.zero : Inputs where
  cmd := 0
  rawIn := 0
  bvIn := 0
  moreIn := false
  lostIn := false
  countIn := 0
  busErrIn := false
  fvIn := Lanes.zero

/-- The output ports (R28), written once per command. -/
structure Outputs where
  err     : BitVec 3
  errInfo : Byte
  regOut  : RegId
  wOut    : BitVec 2
  nfOut   : BitVec 5
  rawOut  : Word
  bvOut   : BitVec 2
  fvOut   : Lanes
  esOut   : Lanes
  kindOut : BitVec 2
  relOut  : Bool
  rowOut  : Byte
  colOut  : Byte
  roleOut : BitVec 2
  moreOut : Bool
  lostOut : Bool
  kstOut  : BitVec 2
  deriving DecidableEq, Repr

/-- R9: an output port no command assigns is driven 0; a command assigns over this record. -/
def Outputs.zero : Outputs where
  err := 0
  errInfo := 0
  regOut := 0
  wOut := 0
  nfOut := 0
  rawOut := 0
  bvOut := 0
  fvOut := Lanes.zero
  esOut := Lanes.zero
  kindOut := 0
  relOut := false
  rowOut := 0
  colOut := 0
  roleOut := 0
  moreOut := false
  lostOut := false
  kstOut := 0

/-- What the host does to the block: it issues a command with its input-port values (R41), or
resets the block (R100, "an event of the block, separate from commands"). -/
inductive HostEvent where
  | reset
  | command (inputs : Inputs)
  deriving DecidableEq, Repr

/-- The block. `cfg` is constant (R11); `kfd` is the only architectural state (R12, R24); `inputs` are
the input ports as the current command samples them; `out` is the result of the last event, `none`
where it has none (R29: outputs exist only as the result of a command); `pending` holds what the host
has yet to do, the next event first (R41, R109; the model's own field, notes/assumptions/3.md). -/
structure State where
  cfg     : Cfg
  kfd     : PerProfile KfdState
  inputs  : Inputs
  out     : Option Outputs
  pending : List HostEvent
  deriving DecidableEq, Repr

/-- The block right after reset with a given configuration (R29, R100 to R102). -/
def State.resetWith (c : Cfg) : State where
  cfg := c
  kfd := ⟨.idle, .idle⟩
  inputs := Inputs.zero
  out := none
  pending := []

/-- The block right after reset. DESIGN CHOICE (notes/assumptions/1.md, unsafe): the configuration is
the spec's example TC, since the spec fixes none; claims speak of `State.resetWith c` for every c. -/
def State.reset : State := State.resetWith testConfig

/-- Why the block stops. No condition of 60_exceptions.md is one: those are results (R86, R95). -/
inductive Fault where
  /-- Raised by `step` when the host has no further event: a run "ends after the last command the host
  issues" (R109). Safe: no command is left to execute. -/
  | endOfRun
  deriving DecidableEq, Repr

/-- Why the model gives no meaning. -/
inductive Refusal where
  /-- Raised by an arm of `exec` that has no meaning yet (none at present). Safe. -/
  | notModelled (mnemonic : String)
  /-- Raised by `step` and by every command of a block whose configuration is not well formed: "a
  model refuses (gives no meaning to) a block built with an ill-formed configuration" (R8, R17). Safe. -/
  | illFormedConfiguration
  deriving DecidableEq, Repr

end Sys2Proof.Machine
end

