-- ==== Sys2Proof/Machine/Flags.lean ====
section
/-! DEFINITION. The block has no condition flags (10_state.md R12). This file holds what stands in
their place: the status ports `err`, `err_info` (60_exceptions.md R86) and `kst_out` (R28), and the
codes of `kind_out` and `role_out` (R28). -/

namespace Sys2Proof.Machine

/-- The error conditions with the information each carries (R86). -/
inductive CmdError where
  /-- `ILLEGAL_COMMAND`, with `cmd[15:8]` (R88). -/
  | illegalCommand (hi : Byte)
  /-- `BUS_ERROR` (R89). -/
  | busError
  /-- `INVALID_ADDRESS(addr)` (R90). -/
  | invalidAddress (addr : Addr)
  /-- `LENGTH_ERROR(bv_in)` (R91). -/
  | lengthError (bv : BitVec 2)
  /-- `FIELD_OVERFLOW(k)` (R92). -/
  | fieldOverflow (lane : Nat)
  deriving DecidableEq, Repr

/-- `err[2:0]` (R86); 0 is `OK`, 6 and 7 are never driven. -/
def CmdError.code : CmdError → BitVec 3
  | .illegalCommand _ => 1
  | .busError => 2
  | .invalidAddress _ => 3
  | .lengthError _ => 4
  | .fieldOverflow _ => 5

/-- `err_info[7:0]` (R86). -/
def CmdError.info : CmdError → Byte
  | .illegalCommand hi => hi
  | .busError => 0
  | .invalidAddress addr => addr
  | .lengthError bv => bv.setWidth 8
  | .fieldOverflow lane => BitVec.ofNat 8 lane

/-- The key-event outcomes (R71). -/
inductive KeyKind where
  | none
  | key
  | empty
  | invalid
  deriving DecidableEq, Repr

/-- `kind_out[1:0]` (R28). -/
def KeyKind.code : KeyKind → BitVec 2
  | .none => 0
  | .key => 1
  | .empty => 2
  | .invalid => 3

/-- The column roles (R28, R73). -/
inductive Role where
  | matrix
  | sfkey
  | dedicated
  deriving DecidableEq, Repr

/-- `role_out[1:0]` (R28); 3 is never driven. -/
def Role.code : Role → BitVec 2
  | .matrix => 0
  | .sfkey => 1
  | .dedicated => 2

/-- 1 when the decoder state is `READING`. -/
def readingBit (k : KfdState) : Bool := decide (k = .reading)

/-- `kst_out[1:0]` (R28): bit 0 shows profile PS, bit 1 profile PC. -/
def kstOf (k : PerProfile KfdState) : BitVec 2 :=
  BitVec.ofBool (readingBit k.pc) ++ BitVec.ofBool (readingBit k.ps)

/-- R72: `READING` when more events may follow, else `IDLE`. -/
def nextKfd (more : Bool) : KfdState := if more then .reading else .idle

end Sys2Proof.Machine
end

