-- ==== Sys2Proof/Machine/Operands.lean ====
section
/-! DEFINITION. The operand forms: the address-map lookup (40_register_decoder.md R55), the byte
lanes (20_memory.md R34, 40_register_decoder.md R56, 41_register_encoder.md R64), fields and lanes (R13, R27, R56). -/

namespace Sys2Proof.Machine

/-- `Cfg.ADDRESS_MAP[P](addr, ctx)` (R15). -/
def mapEntry (c : Cfg) (p : Profile) (ctx : Ctx) (addr : Addr) : Option RegId :=
  ((c.addressMap.get p).find? (fun e => e.addr == addr && e.ctx == ctx)).map (·.reg)

/-- `LOOKUP(P, ctx, addr)` (R55). In a well-formed configuration every id the map names is in the
table (R17 (e)), so the inner miss never happens there; elsewhere the command is refused (R8). It
answers whatever entry the map holds, at the second address of a pair too (DESIGN CHOICE,
notes/assumptions/16.md); without one there, that address is a map miss (R39). -/
def lookup (c : Cfg) (p : Profile) (ctx : Ctx) (addr : Addr) : Except CmdError (RegId × Layout) :=
  match mapEntry c p ctx addr with
  | none => .error (.invalidAddress addr)
  | some id =>
    match layoutOf c id with
    | none => .error (.invalidAddress addr)
    | some L => .ok (id, L)

/-- `mask(w) = 2^w - 1` on a 16-bit lane. -/
def mask (w : Nat) : Word := BitVec.ofNat 16 (2 ^ w - 1)

/-- `raw[7:0]`, the byte at the base address (R26). -/
def lowLane (raw : Word) : Byte := raw.extractLsb' 0 8

/-- `raw[15:8]`, the byte at the next address (R26). -/
def highLane (raw : Word) : Byte := raw.extractLsb' 8 8

/-- R34: the 16-bit value of a pair from its lanes. -/
def joinPair (o : PairOrder) (raw : Word) : Word :=
  match o with
  | .lowAddrHigh => lowLane raw ++ highLane raw
  | .lowAddrLow => highLane raw ++ lowLane raw

/-- `SPLIT(P, v)` (R64), the inverse of R34. -/
def splitPair (o : PairOrder) (v : Word) : Word :=
  match o with
  | .lowAddrHigh => lowLane v ++ highLane v
  | .lowAddrLow => highLane v ++ lowLane v

/-- `ASSEMBLE(P, W, raw)` (R56), zero-extended to 16 bits when `W = 8`. -/
def assemble (c : Cfg) (p : Profile) (L : Layout) (raw : Word) : Word :=
  if L.width = 8 then (lowLane raw).setWidth 16 else joinPair (c.pairOrder.get p) raw

/-- The raw lanes of an encoded value (R64, R37). -/
def disassemble (c : Cfg) (p : Profile) (L : Layout) (v : Word) : Word :=
  if L.width = 8 then (lowLane v).setWidth 16 else splitPair (c.pairOrder.get p) v

/-- The byte-valid bits of a register's width (R37, R58, R64). -/
def byteMask (L : Layout) : BitVec 2 := if L.width = 8 then 0b01 else 0b11

/-- `W / 8`, as `w_out` carries it (R28, R57). -/
def widthBytes (L : Layout) : BitVec 2 := BitVec.ofNat 2 (L.width / 8)

/-- The non-reserved fields in list order: the one numbered k uses lane k (R13). -/
def laneFields (L : Layout) : List Field := L.fields.filter (fun f => !isRsv f)

/-- The number of non-reserved fields, as `nf_out` carries it (R57). -/
def fieldCount (L : Layout) : BitVec 5 := BitVec.ofNat 5 (laneFields L).length

/-- `FIELD(v, f) = (v >> f.off) & mask(f.w)` (R56). -/
def fieldOf (v : Word) (f : Field) : Word := (v >>> f.off) &&& mask f.w

/-- `es_out` of a field with code `code` (R58, R60): the map's state, 0 for a `NUM` field. -/
def stateOf (f : Field) (code : Word) : Word :=
  match f.kind with
  | .num => 0
  | .rsv => 0
  | .enum map => map.getD code.toNat 0

/-- A port's lanes from their values, lane 0 first; the lanes beyond them are 0 (R58, R59). -/
def lanesOf (values : List Word) : Lanes := Vector.ofFn (fun k => values.getD k.val 0)

/-- Lane `k` of a port (R27); a port has lanes 0 to 15. -/
def laneAt (lanes : Lanes) (k : Nat) : Word := lanes.toList.getD k 0

/-- The field loop of `RENC` (R64): from lane `k` and the value so far, the value with every remaining
field's lane ORed in, or the lowest lane too wide for its field. -/
def packFields (fv : Lanes) : List Field → Nat → Word → Except CmdError Word
  | [], _, v => .ok v
  | f :: fs, k, v =>
    if isRsv f then packFields fv fs k v
    else if mask f.w < laneAt fv k then .error (.fieldOverflow k)
    else packFields fv fs (k + 1) (v ||| (laneAt fv k <<< f.off))

end Sys2Proof.Machine
end

