-- ==== Sys2Proof/Machine/Ops.lean ====
section
/-! DEFINITION. How a command ends: completing with a result, raising an error (60_exceptions.md R87),
the reset event (70_reset_and_hazards.md R100), and the refusal of an ill-formed block (R8).
The block has no memory (10_state.md R12), so no memory operation stands here. -/

namespace Sys2Proof.Machine

/-- A command writes its output ports and the decoder states; `kst_out` shows the states after it and
is driven on every command (R28). -/
def complete (s : State) (o : Outputs) (k : PerProfile KfdState) : State :=
  { s with kfd := k, out := some { o with kstOut := kstOf k } }

/-- `raise E(info)` (R87): `err` and `err_info` are driven, every other output is 0, the decoder state
stays and `kst_out` shows it. There is no trap entry and no return (R95, R96). -/
def raiseError (s : State) (e : CmdError) : State :=
  complete s { Outputs.zero with err := e.code, errInfo := e.info } s.kfd

/-- The reset event (R100): both decoder states `IDLE`, no result (R29). -/
def resetBlock (s : State) : State :=
  { s with kfd := ⟨.idle, .idle⟩, out := none }

/-- R8: the block goes on to `t`, its next state or what a run of it gives, if its configuration is
well formed, else it has no meaning. -/
def goOn {α : Type} (s : State) (t : α) : Host.Outcome α Fault Refusal :=
  if cfgWf s.cfg then .next t else .refused .illFormedConfiguration

/-- The end of a command that leaves the decoder states alone (R24). -/
def finish (s : State) (r : Except CmdError Outputs) : Host.Outcome State Fault Refusal :=
  goOn s (match r with
    | .ok o => complete s o s.kfd
    | .error e => raiseError s e)

/-- The end of a key-event command of profile `p`, which writes `kfd_state[p]` only (R24, R72), and
nothing on an error (R87). -/
def finishKey (s : State) (p : Profile) (r : Except CmdError (Outputs × KfdState)) :
    Host.Outcome State Fault Refusal :=
  goOn s (match r with
    | .ok (o, k) => complete s o (s.kfd.set p k)
    | .error e => raiseError s e)

/-- The outputs every register command drives: id, width in bytes, number of fields (R57). -/
def regHeader (id : RegId) (L : Layout) : Outputs :=
  { Outputs.zero with regOut := id, wOut := widthBytes L, nfOut := fieldCount L }

/-- An illegal command word: `ILLEGAL_COMMAND` with `cmd[15:8]` (R86, R88). -/
def illegalCommand (s : State) : Host.Outcome State Fault Refusal :=
  finish s (.error (.illegalCommand (highLane s.inputs.cmd)))

end Sys2Proof.Machine
end

