-- ==== Sys2Proof/Machine/KeyEventFifo.lean ====
section
/-! DEFINITION. The key_event_fifo_decoder unit (42_key_event_fifo_decoder.md): `KEV.S` for the
sentinel profile PS and `KEV.C` for the count profile PC, "two genuinely different decoder variants". -/

namespace Sys2Proof.Machine

/-- The profile a key-event command belongs to; the register commands belong to none (R24). -/
def keyProfile : Instr → Option Profile
  | .rlook _ _ _ => none
  | .rdec _ _ _ => none
  | .renc _ _ _ => none
  | .kevS => some .ps
  | .kevC => some .pc

/-- A tagged column's role (R73). -/
def taggedRole : TaggedRole → Role
  | .sfkey => .sfkey
  | .dedicated => .dedicated

/-- `ROLE_S(c)` (R73) for the columns 0 to 14 of a key. Column 15 is no key's column (R76). -/
def roleS (r : ColRole) (col : BitVec 4) : Role :=
  if col = 12#4 then taggedRole r.c12
  else if col = 13#4 then taggedRole r.c13
  else if col = 14#4 then taggedRole r.c14
  else .matrix

/-- R75: the empty-queue sentinel, `e[6:0] == 0x7F` (ROW 7 and COLUMN 15) whatever RELEASE is. -/
def isSentinel (e : Byte) : Bool := e.extractLsb' 0 7 == 0x7F#7

/-- RELEASE of profile PS's event byte, `e[7]` (R19, R74). -/
def releaseS (e : Byte) : Bool := e.getLsbD 7

/-- ROW of profile PS's event byte, `e[6:4]` (R19, R74). -/
def rowS (e : Byte) : BitVec 3 := e.extractLsb' 4 3

/-- COLUMN of profile PS's event byte, `e[3:0]` (R19, R74). -/
def colS (e : Byte) : BitVec 4 := e.extractLsb' 0 4

/-- The result of `KEV.S` and the next `kfd_state[PS]` (R74). -/
def kevS (c : Cfg) (i : Inputs) : Except CmdError (Outputs × KfdState) :=
  if i.busErrIn then .error .busError
  else if i.bvIn ≠ 0b01 then .error (.lengthError i.bvIn)
  else
    let e := lowLane i.rawIn
    if isSentinel e then
      .ok ({ Outputs.zero with kindOut := KeyKind.empty.code, lostOut := i.lostIn }, .idle)
    else
      let key := { Outputs.zero with
        relOut := releaseS e
        rowOut := (rowS e).setWidth 8
        colOut := (colS e).setWidth 8
        moreOut := i.moreIn
        lostOut := i.lostIn }
      if colS e = 15#4 then
        .ok ({ key with kindOut := KeyKind.invalid.code }, nextKfd i.moreIn)
      else
        .ok ({ key with kindOut := KeyKind.key.code, roleOut := (roleS c.colRole (colS e)).code },
          nextKfd i.moreIn)

/-- `n = count_in[COUNT_W-1 : 0]` (R80). -/
def eventCount (c : Cfg) (count : Byte) : Nat := count.toNat % 2 ^ c.countW

/-- `(e >> off) & mask(w)` on the event byte (R80). -/
def recordField (e : Byte) (off w : Nat) : Byte := (e >>> off) &&& BitVec.ofNat 8 (2 ^ w - 1)

/-- The result of `KEV.C` and the next `kfd_state[PC]` (R80). -/
def kevC (c : Cfg) (i : Inputs) : Except CmdError (Outputs × KfdState) :=
  if i.busErrIn then .error .busError
  else if eventCount c i.countIn = 0 then
    .ok ({ Outputs.zero with kindOut := KeyKind.empty.code, lostOut := i.lostIn }, .idle)
  else if i.bvIn ≠ 0b01 then .error (.lengthError i.bvIn)
  else
    let e := lowLane i.rawIn
    let more := decide (2 ≤ eventCount c i.countIn)
    .ok ({ Outputs.zero with
      relOut := e.getLsbD c.evtC.relBit == c.evtC.relVal
      rowOut := recordField e c.evtC.rowOff c.evtC.rowW
      colOut := recordField e c.evtC.colOff c.evtC.colW
      roleOut := Role.matrix.code
      kindOut := KeyKind.key.code
      moreOut := more
      lostOut := i.lostIn }, nextKfd more)

/-- `KEV.S` (R74). -/
def execKevS (s : State) : Host.Outcome State Fault Refusal :=
  finishKey s .ps (kevS s.cfg s.inputs)

/-- `KEV.C` (R80). -/
def execKevC (s : State) : Host.Outcome State Fault Refusal :=
  finishKey s .pc (kevC s.cfg s.inputs)

end Sys2Proof.Machine
end

