-- ==== Sys2Proof/Machine/RegisterDecoder.lean ====
section
/-! DEFINITION. The register_decoder unit (40_register_decoder.md): `RLOOK` and `RDEC`. Each result is
a function of the configuration, the input ports and the operands alone (10_state.md R25). -/

namespace Sys2Proof.Machine

/-- The result of `RLOOK P, ctx, addr` (R57). -/
def rlook (c : Cfg) (i : Inputs) (p : Profile) (ctx : Ctx) (addr : Addr) : Except CmdError Outputs :=
  if i.busErrIn then .error .busError
  else match lookup c p ctx addr with
    | .error e => .error e
    | .ok (id, L) => .ok (regHeader id L)

/-- The result of `RDEC P, ctx, addr` (R58). -/
def rdec (c : Cfg) (i : Inputs) (p : Profile) (ctx : Ctx) (addr : Addr) : Except CmdError Outputs :=
  if i.busErrIn then .error .busError
  else match lookup c p ctx addr with
    | .error e => .error e
    | .ok (id, L) =>
      if i.bvIn ≠ byteMask L then .error (.lengthError i.bvIn)
      else
        let v := assemble c p L i.rawIn
        .ok { regHeader id L with
          fvOut := lanesOf ((laneFields L).map (fieldOf v))
          esOut := lanesOf ((laneFields L).map (fun f => stateOf f (fieldOf v f))) }

/-- `RLOOK` (R57). -/
def execRlook (p : Profile) (ctx : Ctx) (addr : Addr) (s : State) :
    Host.Outcome State Fault Refusal :=
  finish s (rlook s.cfg s.inputs p ctx addr)

/-- `RDEC` (R58). -/
def execRdec (p : Profile) (ctx : Ctx) (addr : Addr) (s : State) :
    Host.Outcome State Fault Refusal :=
  finish s (rdec s.cfg s.inputs p ctx addr)

end Sys2Proof.Machine
end

