-- ==== Sys2Proof/Machine/RegisterEncoder.lean ====
section
/-! DEFINITION. The register_encoder unit (41_register_encoder.md): `RENC`. -/

namespace Sys2Proof.Machine

/-- The result of `RENC P, ctx, addr` (R64): reserved bits stay 0, since no lane feeds them (R65). -/
def renc (c : Cfg) (i : Inputs) (p : Profile) (ctx : Ctx) (addr : Addr) : Except CmdError Outputs :=
  if i.busErrIn then .error .busError
  else match lookup c p ctx addr with
    | .error e => .error e
    | .ok (id, L) =>
      match packFields i.fvIn L.fields 0 0 with
      | .error e => .error e
      | .ok v => .ok { regHeader id L with rawOut := disassemble c p L v, bvOut := byteMask L }

/-- `RENC` (R64). -/
def execRenc (p : Profile) (ctx : Ctx) (addr : Addr) (s : State) :
    Host.Outcome State Fault Refusal :=
  finish s (renc s.cfg s.inputs p ctx addr)

end Sys2Proof.Machine
end

