-- ==== Sys2Proof/Machine/Dispatch.lean ====
section
/-! DEFINITION. One arm per command (30_encoding.md rule R47). -/

namespace Sys2Proof.Machine

def exec (i : Instr) (s : State) : Host.Outcome State Fault Refusal :=
  match i with
  | .rlook p ctx addr => Sys2Proof.Machine.execRlook p ctx addr s
  | .rdec p ctx addr => Sys2Proof.Machine.execRdec p ctx addr s
  | .renc p ctx addr => Sys2Proof.Machine.execRenc p ctx addr s
  | .kevS => Sys2Proof.Machine.execKevS s
  | .kevC => Sys2Proof.Machine.execKevC s

end Sys2Proof.Machine
end

