-- ==== Sys2Proof/Machine/Fetch.lean ====
section
/-! DEFINITION. Taking the host's next event: sampling the input ports and decoding the command word
(10_state.md R26, 20_memory.md R41, 30_encoding.md R48). The block fetches no instruction from any
memory (R44): the next command is the one the host issues next. -/

namespace Sys2Proof.Machine

/-- The input ports are sampled once per command (R26); `rest` is what the host does after it. -/
def sample (s : State) (i : Inputs) (rest : List HostEvent) : State :=
  { s with inputs := i, pending := rest }

/-- The command whose word stands on `cmd` (R48); a word of the illegal space ends with
`ILLEGAL_COMMAND` (R88). -/
def runCommand (s : State) : Host.Outcome State Fault Refusal :=
  match decode s.inputs.cmd with
  | .ok k => exec k s
  | .error _ => illegalCommand s

/-- The reset event (R100); what the host does next is `rest`. -/
def runReset (s : State) (rest : List HostEvent) : Host.Outcome State Fault Refusal :=
  goOn s (resetBlock { s with pending := rest })

/-- No event is left: the run has ended (R109), if the block has a meaning at all (R8). -/
def endRun (s : State) : Host.Outcome State Fault Refusal :=
  if cfgWf s.cfg then .fault .endOfRun else .refused .illFormedConfiguration

/-- The host's events with `w` as the next command's word: it replaces the word of a command that is
next, whose other input ports stay, or is put before whatever is next with the ports of `s`. -/
def issueWord (s : State) (w : Word) : List HostEvent :=
  match s.pending with
  | .command i :: rest => .command { i with cmd := w } :: rest
  | [] => [.command { s.inputs with cmd := w }]
  | .reset :: rest => .command { s.inputs with cmd := w } :: .reset :: rest

end Sys2Proof.Machine
end

