-- ==== Sys2Proof/Machine/Step.lean ====
section
/-! DEFINITION. One step of the block: the host's next event, whole (20_memory.md R41,
70_reset_and_hazards.md R107), and the host's way to place a command word. -/

namespace Sys2Proof.Machine

/-- One step: the next command with its input-port values, or the reset event. -/
def step (s : State) : Host.Outcome State Fault Refusal :=
  match s.pending with
  | [] => endRun s
  | .reset :: rest => runReset s rest
  | .command i :: rest => runCommand (sample s i rest)

/-- `s` with `w` as the word of the next command the host issues (R51: a word of 16 bits). -/
def State.withFetchWord (s : State) (nbits w : Nat) : State :=
  { s with pending := issueWord s (BitVec.ofNat 16 (w % 2 ^ nbits)) }

end Sys2Proof.Machine
end

