-- ==== Sys2Proof/Machine/Assembler.lean ====
section
/-! DEFINITION. From an assembler line to its command and word (30_encoding.md rules R46, R53). -/

namespace Sys2Proof.Machine

/-- The (context, address) pairs profile `p`'s map gives the register named `n` (R15, R53). -/
def placesOf (c : Cfg) (p : Profile) (n : String) : List (Ctx × Addr) :=
  (c.addressMap.get p).filterMap (fun e =>
    match entryOf c e.reg with
    | none => none
    | some r => if r.name == n then some (e.ctx, e.addr) else none)

/-- The one place of a list; several or none stand for none (DESIGN CHOICE, notes/assumptions/8.md). -/
def onlyPlace : List (Ctx × Addr) → Option (Ctx × Addr)
  | [place] => some place
  | [] => none
  | _ :: _ :: _ => none

/-- R53: the pair a location operand stands for, if it is in range. A name stands for the one pair its
profile's map gives it, a context beside it picks among several (notes/assumptions/8.md). -/
def resolve (c : Cfg) (p : Profile) (l : AsmLoc) : Option (Ctx × Addr) :=
  if l.wf then
    match l with
    | .pair ctx addr => some (BitVec.ofNat 2 ctx, BitVec.ofNat 8 addr)
    | .named ctx n => onlyPlace ((placesOf c p n).filter (fun q => q.1 == BitVec.ofNat 2 ctx))
    | .name n => onlyPlace (placesOf c p n)
  else none

/-- R53: the command of an assembler line; `KEV <p>` stands for `KEV.S` or `KEV.C`. -/
def assembleLine (c : Cfg) : Asm → Option Instr
  | .rlook p l => (resolve c p l).map (fun q => .rlook p q.1 q.2)
  | .rdec p l => (resolve c p l).map (fun q => .rdec p q.1 q.2)
  | .renc p l => (resolve c p l).map (fun q => .renc p q.1 q.2)
  | .kevS => some .kevS
  | .kevC => some .kevC
  | .kev .ps => some .kevS
  | .kev .pc => some .kevC

end Sys2Proof.Machine
end

