-- ==== Sys2Proof/Machine/Run.lean ====
section
/-! DEFINITION. A run of the block and its observation (70_reset_and_hazards.md R109), and the drain of
an event queue (42_key_event_fifo_decoder.md R85). -/

namespace Sys2Proof.Machine

/-- The host has only this command left to issue. -/
def issue (s : State) (i : Inputs) : State := { s with pending := [.command i] }

/-- The results of a sequence of commands issued one after the other from `s`, oldest first, with the
state after the last (R41, R109). A block with an ill-formed configuration has no run, not even the
empty one (R8, R102). -/
def runCommands (s : State) :
    List Inputs → Host.Outcome (List Outputs × State) Fault Refusal
  | [] => goOn s ([], s)
  | i :: rest =>
    match step (issue s i) with
    | .fault f => .fault f
    | .refused r => .refused r
    | .next t =>
      match runCommands t rest with
      | .fault f => .fault f
      | .refused r => .refused r
      | .next (results, u) => .next (t.out.toList ++ results, u)

/-- R109: "a reset followed by a finite sequence of commands", of a block built with `c`. -/
def runFromReset (c : Cfg) (commands : List Inputs) :
    Host.Outcome (List Outputs × State) Fault Refusal :=
  runCommands (State.resetWith c) commands

/-- R109: what is observed of a run, the command results and the final `kfd_state`. -/
def observation (c : Cfg) (commands : List Inputs) : Option (List Outputs × PerProfile KfdState) :=
  match runFromReset c commands with
  | .next (results, u) => some (results, u.kfd)
  | .fault _ => none
  | .refused _ => none

/-- The results of profile `p`'s key-event commands among commands with their results, in order. -/
def keyEventsOf (p : Profile) : List (Inputs × Outputs) → List Outputs
  | [] => []
  | (i, o) :: rest =>
    match decode i.cmd with
    | .error _ => keyEventsOf p rest
    | .ok k => if keyProfile k = some p then o :: keyEventsOf p rest else keyEventsOf p rest

/-- Results up to and with the first that gives `more_out = 0`. -/
def upToLastEvent : List Outputs → List Outputs
  | [] => []
  | o :: rest => if o.moreOut then o :: upToLastEvent rest else [o]

/-- R85: the results of one drain of profile `p`, "key-event commands of one profile ... until a command
gives more_out = 0". DESIGN CHOICE (notes/assumptions/15.md): the rule does not say that these commands
follow one another at once; a command between them that is no key event of `p` is no part of the drain
and does not end it. -/
def drainOf (p : Profile) (l : List (Inputs × Outputs)) : List Outputs :=
  upToLastEvent (keyEventsOf p l)

/-- R85: the records of one drain, its `KEY` and `INVALID` outcomes in order. -/
def drainRecords (p : Profile) (l : List (Inputs × Outputs)) : List Outputs :=
  (drainOf p l).filter (fun o =>
    o.kindOut == KeyKind.key.code || o.kindOut == KeyKind.invalid.code)

end Sys2Proof.Machine
end

