-- ==== Sys2Proof/Safety.lean ====
section
/-! DEFINITION. What counts as a lawful result and a lawful state of the block, in the terms claims
use: the port ranges of 10_state.md R28, no partial result (60_exceptions.md R87), no lane left over
(40_register_decoder.md R59), and `kst_out` showing the decoder states. -/

namespace Sys2Proof

open Sys2Proof.Machine

/-- R86: `err` is one of the codes 0 to 5, and `err_info` is 0 when it is `OK`. -/
def ErrLawful (o : Outputs) : Prop := o.err.toNat ≤ 5 ∧ (o.err = 0 → o.errInfo = 0)

/-- R87: an error leaves every output but `err`, `err_info` and `kst_out` at 0. -/
def NoPartialResult (o : Outputs) : Prop :=
  o.err ≠ 0 → o = { Outputs.zero with err := o.err, errInfo := o.errInfo, kstOut := o.kstOut }

/-- R28, R37: the register ports. A width of 1 or 2 bytes (0 where no register is named), at most 16
fields, and the byte-valid bits with no byte driven that they do not mark. -/
def RegisterPortsLawful (o : Outputs) : Prop :=
  o.wOut ≠ 3 ∧ o.nfOut.toNat ≤ 16 ∧
    (o.bvOut = 0 ∧ o.rawOut = 0 ∨ o.bvOut = 1 ∧ highLane o.rawOut = 0 ∨ o.bvOut = 3)

/-- R59: every lane from `nf_out` to 15 is 0. -/
def LanesLawful (o : Outputs) : Prop :=
  ∀ k, o.nfOut.toNat ≤ k → k < 16 → laneAt o.fvOut k = 0 ∧ laneAt o.esOut k = 0

/-- R28, R71 to R76: role 3 is never driven; a role stands only beside a `KEY`; the `EMPTY` outcome
and a command that is no key event carry no row, column, release or chaining signal. -/
def KeyPortsLawful (o : Outputs) : Prop :=
  o.roleOut ≠ 3 ∧ (o.kindOut ≠ KeyKind.key.code → o.roleOut = 0) ∧
    (o.kindOut = KeyKind.none.code ∨ o.kindOut = KeyKind.empty.code →
      o.rowOut = 0 ∧ o.colOut = 0 ∧ o.relOut = false ∧ o.moreOut = false)

/-- A result the rules allow. -/
def ResultLawful (o : Outputs) : Prop :=
  ErrLawful o ∧ NoPartialResult o ∧ RegisterPortsLawful o ∧ LanesLawful o ∧ KeyPortsLawful o

/-- R28: `kst_out[0] = (kfd_state[PS] == READING)` and `kst_out[1] = (kfd_state[PC] == READING)`. -/
def ShowsStates (o : Outputs) (k : PerProfile KfdState) : Prop :=
  o.kstOut.getLsbD 0 = decide (k.ps = .reading) ∧ o.kstOut.getLsbD 1 = decide (k.pc = .reading)

/-- The invariant of the block: its configuration is well formed (R102), and its last result, if it
has one, is lawful and shows the decoder states on `kst_out` (R28). -/
def Inv (s : State) : Prop :=
  cfgWf s.cfg = true ∧ ∀ o, s.out = some o → ResultLawful o ∧ ShowsStates o s.kfd

/-- Every output but `kst_out`, which is the one output that reads the decoder states (R25). -/
def sansKst (o : Outputs) : Outputs := { o with kstOut := 0 }

/-- A register command's block is well formed, its transfer did not fail, the profile's map holds an
entry of (addr, ctx) with the id, and the table one of the id with the layout: the premises, said on
the configuration's lists, under which `RLOOK`, `RDEC` and `RENC` reach their register (R15, R16, R55). -/
def Finds (s : State) (p : Profile) (ctx : Ctx) (addr : Addr) (id : RegId) (L : Layout) : Prop :=
  cfgWf s.cfg = true ∧ s.inputs.busErrIn = false ∧
    (∃ e ∈ s.cfg.addressMap.get p, e.addr = addr ∧ e.ctx = ctx ∧ e.reg = id) ∧
    ∃ r ∈ s.cfg.regTable, r.id = id ∧ r.layout = L

/-- Profile `p`'s map holds the table's register `r` (R15, R16), said on the configuration's lists. -/
def MapHolds (c : Cfg) (p : Profile) (r : RegEntry) : Prop :=
  r ∈ c.regTable ∧ ∃ e ∈ c.addressMap.get p, e.reg = r.id

/-- Every lane of a non-reserved field holds a value below `2^w` (R64, R70). -/
def LanesFit (L : Layout) (fv : Lanes) : Prop :=
  ∀ k f, (laneFields L)[k]? = some f → (laneAt fv k).toNat < 2 ^ f.w

/-- The state after `raise E(info)` (R87): only the output ports change, and of them all but `err`,
`err_info` and `kst_out` are 0. -/
def afterError (s : State) (code : BitVec 3) (info : Byte) : State :=
  { s with out := some { Outputs.zero with err := code, errInfo := info, kstOut := kstOf s.kfd } }

/-- R90: the command names an (address, context) the profile's map does not hold. -/
def addressMissing (c : Cfg) : Instr → Bool
  | .rlook p ctx addr => (mapEntry c p ctx addr).isNone
  | .rdec p ctx addr => (mapEntry c p ctx addr).isNone
  | .renc p ctx addr => (mapEntry c p ctx addr).isNone
  | .kevS => false
  | .kevC => false

/-- The layout a register command reaches. -/
def layoutAt (c : Cfg) (p : Profile) (ctx : Ctx) (addr : Addr) : Option Layout :=
  (mapEntry c p ctx addr).bind (layoutOf c)

/-- R91: the byte-valid bits do not match what the command reads. -/
def lengthWrong (c : Cfg) (i : Inputs) : Instr → Bool
  | .rlook _ _ _ => false
  | .rdec p ctx addr =>
    (layoutAt c p ctx addr).any (fun L => i.bvIn != (if L.width = 8 then 0b01#2 else 0b11#2))
  | .renc _ _ _ => false
  | .kevS => i.bvIn != 0b01#2
  | .kevC => i.countIn.toNat % 2 ^ c.countW != 0 && i.bvIn != 0b01#2

/-- R92: some lane holds a value too wide for its field. -/
def laneTooWide (c : Cfg) (i : Inputs) : Instr → Bool
  | .rlook _ _ _ => false
  | .rdec _ _ _ => false
  | .renc p ctx addr =>
    (layoutAt c p ctx addr).any (fun L => (laneFields L).zipIdx.any (fun q =>
      decide (2 ^ q.1.w ≤ (laneAt i.fvIn q.2).toNat)))
  | .kevS => false
  | .kevC => false

/-- R94: the code of the first error that applies to a command, in the rule's order, 0 if none. -/
def firstError (c : Cfg) (i : Inputs) : BitVec 3 :=
  match decode i.cmd with
  | .error _ => 1
  | .ok k =>
    if i.busErrIn then 2
    else if addressMissing c k then 3
    else if lengthWrong c i k then 4
    else if laneTooWide c i k then 5
    else 0

/-- R72 along a run: the state of profile `p` after commands with their results, from `k`. Only a
key-event command of `p` that raises no error changes it, by its chaining verdict. -/
def verdictAfter (p : Profile) : List (Inputs × Outputs) → KfdState → KfdState
  | [], k => k
  | (i, o) :: rest, k =>
    match decode i.cmd with
    | .error _ => verdictAfter p rest k
    | .ok j =>
      if keyProfile j = some p ∧ o.err = 0 then
        verdictAfter p rest (if o.moreOut then .reading else .idle)
      else verdictAfter p rest k

end Sys2Proof
end

