-- ==== Sys2Proof/Certificates/Slice0/Obligations.lean ====
section
/-! DEFINITION. The statements for the provers. Every statement holds for every configuration the block
may be built with: none rests on the configuration of `State.reset`. -/

open Sys2Proof Sys2Proof.Machine

/-! ## The command word -/

/-- R46, R47: decoding a command's word gives the command, with every operand at every value (the
encoding is the spec's own decision D3). -/
def Obligations.DecodeOfEncodeIsTheCommand : Prop :=
  ∀ i : Instr, decode (encode i) = .ok i

/-- R46 to R48: a word the decoder accepts is the word of the command it stands for, so no two words
share a command and no bit of a word is ignored (decision D3). -/
def Obligations.EncodeOfDecodeIsTheWord : Prop :=
  ∀ (w : Word) (i : Instr), decode w = .ok i → encode i = w

/-- R52: the illegal space, said on the word as a number: `op` 0, 5, 6 or 7, reserved bits set, or
`op` 4 with a context or an address (decision D3). -/
def Obligations.IllegalSpaceIsExactlyRejected : Prop :=
  ∀ w : Word, (∃ e, decode w = .error e) ↔
    (w.toNat / 8192 = 0 ∨ 5 ≤ w.toNat / 8192) ∨ w.toNat / 256 % 4 ≠ 0 ∨
      (w.toNat / 8192 = 4 ∧ (w.toNat / 1024 % 4 ≠ 0 ∨ w.toNat % 256 ≠ 0))

/-- R54: the worked encodings (decision D3). -/
def Obligations.WorkedEncodingsDecode : Prop :=
  decode 0x3880 = .ok (.rlook .pc 2 0x80) ∧ decode 0x4010 = .ok (.rdec .ps 0 0x10) ∧
  decode 0x6010 = .ok (.renc .ps 0 0x10) ∧ decode 0x54FE = .ok (.rdec .pc 1 0xFE) ∧
  decode 0x8000 = .ok .kevS ∧ decode 0x9000 = .ok .kevC ∧
  decode 0x0000 = .error .opcode ∧ decode 0x4110 = .error .reservedBits

/-! ## The machine -/

/-- R41, R48: when the host's next event is a command whose word decodes, the step is that command on
the sampled ports, with the host's further events left as they are. -/
def Obligations.StepRunsTheDecodedCommand : Prop :=
  ∀ (s : State) (i : Inputs) (rest : List HostEvent) (k : Instr),
    s.pending = .command i :: rest → decode i.cmd = .ok k →
    step s = exec k { s with inputs := i, pending := rest }

/-- R88, R87, R94: a word of the illegal space ends with `ILLEGAL_COMMAND` and `cmd[15:8]`, whatever
the other ports hold (decisions D3, D5, D6). -/
def Obligations.IllegalWordRaisesIllegalCommand : Prop :=
  ∀ (s : State) (i : Inputs) (rest : List HostEvent) (e : IllegalWord),
    cfgWf s.cfg = true → s.pending = .command i :: rest → decode i.cmd = .error e →
    step s = .next
      (afterError { s with inputs := i, pending := rest } 1 (BitVec.ofNat 8 (i.cmd.toNat / 256)))

/-- R100: the reset event sets both decoder states to `IDLE`, touches nothing else and produces no
result (decision D22; that no result stands on the ports after it is notes/assumptions/4.md). -/
def Obligations.ResetEventIdlesBothDecoders : Prop :=
  ∀ (s : State) (rest : List HostEvent), cfgWf s.cfg = true → s.pending = .reset :: rest →
    step s = .next { s with kfd := ⟨.idle, .idle⟩, out := none, pending := rest }

/-- R29: after reset, with any configuration, both decoder states are `IDLE` and no output exists
(decision D22). -/
def Obligations.ResetLeavesBothDecodersIdle : Prop :=
  ∀ c : Cfg, (State.resetWith c).kfd.get .ps = .idle ∧ (State.resetWith c).kfd.get .pc = .idle ∧
    (State.resetWith c).out = none ∧ (State.resetWith c).cfg = c

/-- R109: a step with no event left ends the run (that it is a stop is notes/assumptions/3.md). -/
def Obligations.NoFurtherCommandEndsTheRun : Prop :=
  ∀ s : State, cfgWf s.cfg = true → s.pending = [] → step s = .fault .endOfRun

/-- R8, R102: a block built with an ill-formed configuration has no meaning (decision D27). The place
of the refusal is the model's choice, notes/assumptions/9.md: every step, every command and every run
of it, the empty one too, is refused; what counts as ill formed beside R17's list is
notes/assumptions/5.md, 6.md and 14.md. -/
def Obligations.IllFormedBlockIsRefused : Prop :=
  ∀ s : State, cfgWf s.cfg = false →
    step s = .refused .illFormedConfiguration ∧
    (∀ i : Instr, exec i s = .refused .illFormedConfiguration) ∧
    (∀ commands : List Inputs, runCommands s commands = .refused .illFormedConfiguration) ∧
    ∀ commands : List Inputs, runFromReset s.cfg commands = .refused .illFormedConfiguration ∧
      observation s.cfg commands = none

/-- The invariant holds right after reset with any well-formed configuration. -/
def Obligations.InvariantHoldsAfterReset : Prop :=
  ∀ c : Cfg, cfgWf c = true → Inv (State.resetWith c)

/-- Every step keeps the invariant: results within the port ranges of R28, no partial result (R87),
no lane left over (R59), `kst_out` bit 0 and bit 1 showing `READING` of PS and of PC (decisions D4,
D5, D6, D13). -/
def Obligations.StepKeepsTheInvariant : Prop :=
  ∀ s t : State, Inv s → step s = .next t → Inv t

/-- R107: every command completes in its own step with a result, and the next command is taken from
what the host left (decision D1). -/
def Obligations.EveryCommandCompletesInOneStep : Prop :=
  ∀ (s : State) (i : Inputs) (rest : List HostEvent), cfgWf s.cfg = true →
    s.pending = .command i :: rest →
    ∃ t o, step s = .next t ∧ t.out = some o ∧ t.pending = rest ∧ t.inputs = i ∧ t.cfg = s.cfg

/-- R11: no command and no event writes the configuration. -/
def Obligations.ConfigurationIsNeverWritten : Prop :=
  (∀ (i : Instr) (s t : State), exec i s = .next t → t.cfg = s.cfg) ∧
    ∀ s t : State, step s = .next t → t.cfg = s.cfg

/-- R24: only the key-event commands write a decoder state, each its own profile's; an illegal word
writes none. -/
def Obligations.OnlyKeyEventsWriteTheirOwnDecoderState : Prop :=
  (∀ (i : Instr) (s t : State) (p : Profile), exec i s = .next t → keyProfile i ≠ some p →
    t.kfd.get p = s.kfd.get p) ∧
  ∀ (s t : State) (i : Inputs) (rest : List HostEvent) (e : IllegalWord),
    s.pending = .command i :: rest → decode i.cmd = .error e → step s = .next t → t.kfd = s.kfd

/-- R50, the frame of every command: it leaves the configuration, the sampled ports and the host's
further events alone, drives only its own output ports, and writes no decoder state but a key-event
command its own profile's (decision D4). -/
def Obligations.CommandsDriveOnlyTheirOwnPorts : Prop :=
  ∀ (i : Instr) (s t : State), exec i s = .next t → ∃ o, t.out = some o ∧
    t = { s with kfd := t.kfd, out := some o } ∧
    (∀ p, keyProfile i ≠ some p → t.kfd.get p = s.kfd.get p) ∧
    (keyProfile i = none → t.kfd = s.kfd) ∧
    match i with
    | .rlook _ _ _ => o = { Outputs.zero with
        err := o.err, errInfo := o.errInfo, kstOut := o.kstOut,
        regOut := o.regOut, wOut := o.wOut, nfOut := o.nfOut }
    | .rdec _ _ _ => o = { Outputs.zero with
        err := o.err, errInfo := o.errInfo, kstOut := o.kstOut,
        regOut := o.regOut, wOut := o.wOut, nfOut := o.nfOut, fvOut := o.fvOut, esOut := o.esOut }
    | .renc _ _ _ => o = { Outputs.zero with
        err := o.err, errInfo := o.errInfo, kstOut := o.kstOut,
        regOut := o.regOut, wOut := o.wOut, nfOut := o.nfOut, rawOut := o.rawOut, bvOut := o.bvOut }
    | .kevS => o = { Outputs.zero with
        err := o.err, errInfo := o.errInfo, kstOut := o.kstOut,
        kindOut := o.kindOut, relOut := o.relOut, rowOut := o.rowOut, colOut := o.colOut,
        roleOut := o.roleOut, moreOut := o.moreOut, lostOut := o.lostOut }
    | .kevC => o = { Outputs.zero with
        err := o.err, errInfo := o.errInfo, kstOut := o.kstOut,
        kindOut := o.kindOut, relOut := o.relOut, rowOut := o.rowOut, colOut := o.colOut,
        roleOut := o.roleOut, moreOut := o.moreOut, lostOut := o.lostOut }

/-- R25: no output but `kst_out` depends on the decoder states (decision D19). -/
def Obligations.ResultsIgnoreTheDecoderState : Prop :=
  ∀ (i : Instr) (s t : State) (k : PerProfile KfdState), exec i s = .next t →
    ∃ u o o', exec i { s with kfd := k } = .next u ∧ t.out = some o ∧ u.out = some o' ∧
      sansKst o = sansKst o'

/-- R40: a command repeated with the same inputs gives the same outputs and leaves the same state (the
rule is the spec's inference from R25, R74 and R80). -/
def Obligations.RepeatedCommandChangesNothingMore : Prop :=
  ∀ (i : Instr) (s t : State), exec i s = .next t → exec i t = .next t

/-- R45: a register command commutes with every other command, of whatever kind, except in its own
`kst_out` (the rule is the spec's inference from R41, R24 and R25). -/
def Obligations.RegisterCommandsCommuteWithEveryCommand : Prop :=
  ∀ (s : State) (a b : Inputs) (k : Instr) (o₁ o₂ : Outputs) (u : State),
    decode a.cmd = .ok k → keyProfile k = none →
    runCommands s [a, b] = .next ([o₁, o₂], u) →
    ∃ o₁' u', runCommands s [b, a] = .next ([o₂, o₁'], u') ∧ u'.kfd = u.kfd ∧
      sansKst o₁' = sansKst o₁

/-- R45: two key-event commands of one profile need not commute: each writes its profile's
`kfd_state`, so the last one decides, in every block for PS, and for PC in every block whose count has
a value of 2 or more (the spec's inference from R41 and R24). -/
def Obligations.KeyEventsOfOneProfileDoNotCommute : Prop :=
  ∀ s : State, cfgWf s.cfg = true →
    (∃ a b : Inputs, a.cmd = 0x8000 ∧ b.cmd = 0x8000 ∧
      ∃ os u os' u', runCommands s [a, b] = .next (os, u) ∧ runCommands s [b, a] = .next (os', u') ∧
        u.kfd.ps ≠ u'.kfd.ps) ∧
    (2 ≤ s.cfg.countW → ∃ a b : Inputs, a.cmd = 0x9000 ∧ b.cmd = 0x9000 ∧
      ∃ os u os' u', runCommands s [a, b] = .next (os, u) ∧ runCommands s [b, a] = .next (os', u') ∧
        u.kfd.pc ≠ u'.kfd.pc)

/-- R23: no command reads the bus address constants: with others, every command answers the same, or
the block is refused where an address that is not shifted leaves the 7 bits (decision D25; that such a
configuration is ill formed is notes/assumptions/11.md). -/
def Obligations.BusAddressesAreReadByNoCommand : Prop :=
  ∀ (i : Instr) (s t : State) (b : PerProfile Byte), exec i s = .next t →
    exec i { s with cfg := { s.cfg with busAddrDs := b } } =
      if (s.cfg.addrShift.ps = true ∨ b.ps.toNat < 128) ∧
          (s.cfg.addrShift.pc = true ∨ b.pc.toNat < 128) then
        .next { t with cfg := { t.cfg with busAddrDs := b } }
      else .refused .illFormedConfiguration

/-! ## Runs -/

/-- R109, R107: a run gives one result for each command the host issues (decision D1). -/
def Obligations.RunYieldsOneResultPerCommand : Prop :=
  ∀ (c : Cfg) (commands : List Inputs), cfgWf c = true →
    ∃ results u, runFromReset c commands = .next (results, u) ∧ results.length = commands.length

/-- R25, R95, R96: in a run each result, `kst_out` apart, is the one its command gives as the only
command after reset: no earlier command and no earlier error affects it (decisions D6, D19). -/
def Obligations.ResultsDoNotDependOnHistory : Prop :=
  ∀ (c : Cfg) (commands : List Inputs) (results : List Outputs) (u : State),
    runFromReset c commands = .next (results, u) →
    ∀ (j : Nat) (i : Inputs) (o : Outputs), commands[j]? = some i → results[j]? = some o →
      ∃ o' u', runFromReset c [i] = .next ([o'], u') ∧ sansKst o' = sansKst o

/-- R72, R24, R109: after a run each decoder state is what the last key-event command of its profile
that raised no error said of further events, and `IDLE` if there was none (decisions D19, D22). -/
def Obligations.FinalDecoderStateIsTheLastVerdict : Prop :=
  ∀ (c : Cfg) (commands : List Inputs) (results : List Outputs) (u : State) (p : Profile),
    runFromReset c commands = .next (results, u) →
    results.length = commands.length ∧
      u.kfd.get p = verdictAfter p (commands.zip results) .idle

/-- R85: in a run, a drain of a profile, from whichever command on, holds no `EMPTY` outcome and no
error before its last result, so all before it are records (the rule is the spec's inference from R72,
R74 and R80; that other commands between the reads are no part of the drain is the model's choice,
notes/assumptions/15.md). -/
def Obligations.DrainHasOnlyRecordsBeforeItsLast : Prop :=
  ∀ (c : Cfg) (commands : List Inputs) (results : List Outputs) (u : State) (p : Profile) (n : Nat),
    runFromReset c commands = .next (results, u) →
    ∀ o ∈ (drainOf p ((commands.zip results).drop n)).dropLast,
      o.err = 0 ∧ (o.kindOut = 1 ∨ o.kindOut = 3)

/-! ## Errors -/

/-- R89: every legal command with `bus_err_in = 1` raises `BUS_ERROR` and changes nothing else
(decision D33). -/
def Obligations.BusErrorStopsEveryCommand : Prop :=
  ∀ (i : Instr) (s : State), cfgWf s.cfg = true → s.inputs.busErrIn = true →
    exec i s = .next (afterError s 2 0)

/-- R90: `RLOOK`, `RDEC` and `RENC` raise `INVALID_ADDRESS(addr)` when (addr, ctx) has no entry in the
profile's map, whatever the data ports hold. -/
def Obligations.MapMissRaisesInvalidAddress : Prop :=
  ∀ (s : State) (p : Profile) (ctx : Ctx) (addr : Addr), cfgWf s.cfg = true →
    s.inputs.busErrIn = false →
    (∀ e ∈ s.cfg.addressMap.get p, ¬ (e.addr = addr ∧ e.ctx = ctx)) →
    exec (.rlook p ctx addr) s = .next (afterError s 3 addr) ∧
    exec (.rdec p ctx addr) s = .next (afterError s 3 addr) ∧
    exec (.renc p ctx addr) s = .next (afterError s 3 addr)

/-- R91: `RDEC` with byte-valid bits other than its width's, `KEV.S` with any but 0b01, and `KEV.C` with
a non-zero count and any but 0b01, raise `LENGTH_ERROR(bv_in)` (decisions D5, D13, D21). -/
def Obligations.WrongByteValidBitsRaiseLengthError : Prop :=
  (∀ (s : State) (p : Profile) (ctx : Ctx) (addr : Addr) (id : RegId) (L : Layout),
    Finds s p ctx addr id L → s.inputs.bvIn ≠ (if L.width = 8 then 0b01#2 else 0b11#2) →
    exec (.rdec p ctx addr) s = .next (afterError s 4 (BitVec.ofNat 8 s.inputs.bvIn.toNat))) ∧
  ∀ s : State, cfgWf s.cfg = true → s.inputs.busErrIn = false → s.inputs.bvIn ≠ 0b01 →
    exec .kevS s = .next (afterError s 4 (BitVec.ofNat 8 s.inputs.bvIn.toNat)) ∧
    (s.inputs.countIn.toNat % 2 ^ s.cfg.countW ≠ 0 →
      exec .kevC s = .next (afterError s 4 (BitVec.ofNat 8 s.inputs.bvIn.toNat)))

/-- R92, R66: `RENC` raises `FIELD_OVERFLOW(k)` for the lowest lane k that holds `2^w` or more for its
field of width w, and outputs no byte. -/
def Obligations.LowestWideLaneRaisesFieldOverflow : Prop :=
  ∀ (s : State) (p : Profile) (ctx : Ctx) (addr : Addr) (id : RegId) (L : Layout) (k : Nat)
    (f : Field), Finds s p ctx addr id L → (laneFields L)[k]? = some f →
    2 ^ f.w ≤ (laneAt s.inputs.fvIn k).toNat →
    (∀ j < k, ∀ g, (laneFields L)[j]? = some g → (laneAt s.inputs.fvIn j).toNat < 2 ^ g.w) →
    exec (.renc p ctx addr) s = .next (afterError s 5 (BitVec.ofNat 8 k))

/-- R94: a command reports the first error that applies to it in the rule's order, and `OK` only when
none applies (decision D5). -/
def Obligations.FirstErrorInOrderIsReported : Prop :=
  ∀ (s t : State) (i : Inputs) (rest : List HostEvent) (o : Outputs),
    s.pending = .command i :: rest → step s = .next t → t.out = some o →
    o.err = firstError s.cfg i

/-- R87: an error leaves the decoder states and every output but `err`, `err_info` and `kst_out` as the
rule says, so nothing a command computed before it survives (decision D6). -/
def Obligations.ErrorsLeaveNoPartialResult : Prop :=
  ∀ (i : Instr) (s t : State) (o : Outputs), exec i s = .next t → t.out = some o → o.err ≠ 0 →
    t = afterError s o.err o.errInfo

/-- R93: event loss, the empty queue and an undefined key code are outcomes with `err = OK`. -/
def Obligations.LossEmptyAndUndefinedCodeAreNoErrors : Prop :=
  (∀ s : State, cfgWf s.cfg = true → s.inputs.busErrIn = false → s.inputs.bvIn = 0b01 →
    ∃ t o, exec .kevS s = .next t ∧ t.out = some o ∧ o.err = 0 ∧ o.errInfo = 0 ∧
      o.lostOut = s.inputs.lostIn ∧
      (s.inputs.rawIn.toNat % 256 = 0x7F → o.kindOut = 2) ∧
      (s.inputs.rawIn.toNat % 16 = 15 ∧ s.inputs.rawIn.toNat / 16 % 8 ≠ 7 → o.kindOut = 3)) ∧
  ∀ s : State, cfgWf s.cfg = true → s.inputs.busErrIn = false →
    (s.inputs.countIn.toNat % 2 ^ s.cfg.countW = 0 ∨ s.inputs.bvIn = 0b01) →
    ∃ t o, exec .kevC s = .next t ∧ t.out = some o ∧ o.err = 0 ∧ o.errInfo = 0 ∧
      o.lostOut = s.inputs.lostIn ∧
      (s.inputs.countIn.toNat % 2 ^ s.cfg.countW = 0 → o.kindOut = 2)

/-! ## register_decoder -/

/-- R34, R56: the register value from its byte lanes, the lanes back from the value, and a field's
value, said with numbers: an 8-bit value is the byte at A; a pair has the byte at A high or low as
`PAIR_ORDER` says; a field is a quotient and a remainder. -/
def Obligations.AssemblyAndFieldsAsNumbers : Prop :=
  (∀ (c : Cfg) (p : Profile) (L : Layout) (raw : Word), (assemble c p L raw).toNat =
    if L.width = 8 then raw.toNat % 256
    else match c.pairOrder.get p with
      | .lowAddrHigh => raw.toNat % 256 * 256 + raw.toNat / 256
      | .lowAddrLow => raw.toNat) ∧
  (∀ (c : Cfg) (p : Profile) (L : Layout) (v : Word), L.width ≠ 8 →
    assemble c p L (disassemble c p L v) = v ∧ disassemble c p L (assemble c p L v) = v) ∧
  ∀ (v : Word) (f : Field), f.off + f.w ≤ 16 →
    (fieldOf v f).toNat = v.toNat / 2 ^ f.off % 2 ^ f.w

/-- R57, R55, R15, R16: where the profile's map holds an entry and the table a row of the entry's id,
`RLOOK` at the entry's context and address answers the id, the row's width in bytes and its number of
non-reserved fields, and changes nothing else. -/
def Obligations.RlookAnswersTheRegister : Prop :=
  ∀ (s : State) (p : Profile) (e : MapEntry) (r : RegEntry),
    cfgWf s.cfg = true → s.inputs.busErrIn = false →
    e ∈ s.cfg.addressMap.get p → r ∈ s.cfg.regTable → r.id = e.reg →
    exec (.rlook p e.ctx e.addr) s = .next { s with out := some { Outputs.zero with
      regOut := e.reg
      wOut := if r.layout.width = 8 then 1 else 2
      nfOut := BitVec.ofNat 5 (r.layout.fields.filter (fun f => !isRsv f)).length
      kstOut := kstOf s.kfd } }

/-- R58 to R60: `RDEC` gives every non-reserved field, in list order, its bits in `fv_out` and its
logical state in `es_out`, 0 in every lane beyond, and changes nothing else (decisions D12, D13). -/
def Obligations.RdecDecodesEveryField : Prop :=
  ∀ (s : State) (p : Profile) (ctx : Ctx) (addr : Addr) (id : RegId) (L : Layout),
    Finds s p ctx addr id L → s.inputs.bvIn = (if L.width = 8 then 0b01#2 else 0b11#2) →
    ∃ fv es : Lanes,
      exec (.rdec p ctx addr) s = .next { s with out := some { Outputs.zero with
        regOut := id
        wOut := if L.width = 8 then 1 else 2
        nfOut := BitVec.ofNat 5 (L.fields.filter (fun f => !isRsv f)).length
        fvOut := fv
        esOut := es
        kstOut := kstOf s.kfd } } ∧
      (∀ k f, (L.fields.filter (fun f => !isRsv f))[k]? = some f →
        laneAt fv k = fieldOf (assemble s.cfg p L s.inputs.rawIn) f ∧
        (f.kind = .num → laneAt es k = 0) ∧
        ∀ map, f.kind = .enum map → map[(laneAt fv k).toNat]? = some (laneAt es k)) ∧
      ∀ k, (L.fields.filter (fun f => !isRsv f)).length ≤ k → laneAt fv k = 0 ∧ laneAt es k = 0

/-- R61: raw values that agree on every bit of the non-reserved fields decode alike (the rule is the
spec's inference from R58). -/
def Obligations.ReservedBitsDoNotReachTheDecodedView : Prop :=
  ∀ (s t : State) (p : Profile) (ctx : Ctx) (addr : Addr) (raw : Word),
    (∀ id L, mapEntry s.cfg p ctx addr = some id → layoutOf s.cfg id = some L →
      ∀ f ∈ L.fields, f.kind ≠ .rsv → ∀ b, f.off ≤ b → b < f.off + f.w →
        (assemble s.cfg p L s.inputs.rawIn).getLsbD b = (assemble s.cfg p L raw).getLsbD b) →
    exec (.rdec p ctx addr) s = .next t →
    ∃ u, exec (.rdec p ctx addr) { s with inputs := { s.inputs with rawIn := raw } } = .next u ∧
      u.out = t.out

/-- R62, R19: `RDEC` of the event-code register gives RELEASE, ROW and COLUMN of every byte, the
empty-queue byte among them (decision D29). -/
def Obligations.RdecOfTheEventCodeIsAPlainView : Prop :=
  ∀ (s : State) (p : Profile) (ctx : Ctx) (addr : Addr) (id : RegId),
    Finds s p ctx addr id evtcodeLayout → s.inputs.bvIn = 0b01 →
    ∃ t o, exec (.rdec p ctx addr) s = .next t ∧ t.out = some o ∧ o.err = 0 ∧ o.nfOut = 3 ∧
      (laneAt o.fvOut 0).toNat = s.inputs.rawIn.toNat / 128 % 2 ∧
      (laneAt o.fvOut 1).toNat = s.inputs.rawIn.toNat / 16 % 8 ∧
      (laneAt o.fvOut 2).toNat = s.inputs.rawIn.toNat % 16 ∧ o.kindOut = 0

/-- R63: raw 0 decodes to 0 in every lane, of every register, so of the global interrupt status
register with its flags wherever the configuration places them (the spec's inference from R56, R58). -/
def Obligations.RawZeroDecodesToZero : Prop :=
  ∀ (s : State) (p : Profile) (ctx : Ctx) (addr : Addr) (id : RegId) (L : Layout),
    Finds s p ctx addr id L → s.inputs.bvIn = (if L.width = 8 then 0b01#2 else 0b11#2) →
    s.inputs.rawIn = 0 →
    ∃ t o, exec (.rdec p ctx addr) s = .next t ∧ t.out = some o ∧ o.err = 0 ∧
      ∀ k, laneAt o.fvOut k = 0

/-! ## register_encoder -/

/-- R64, R65, R68: when every lane fits its field, `RENC` gives bytes in which each non-reserved field
holds its lane, an enumerated one its code, and each reserved field is 0; an 8-bit result leaves the
high lane 0; nothing else changes. -/
def Obligations.RencEncodesEveryField : Prop :=
  ∀ (s : State) (p : Profile) (ctx : Ctx) (addr : Addr) (id : RegId) (L : Layout),
    Finds s p ctx addr id L → LanesFit L s.inputs.fvIn →
    ∃ raw : Word,
      exec (.renc p ctx addr) s = .next { s with out := some { Outputs.zero with
        regOut := id
        wOut := if L.width = 8 then 1 else 2
        nfOut := BitVec.ofNat 5 (L.fields.filter (fun f => !isRsv f)).length
        rawOut := raw
        bvOut := if L.width = 8 then 0b01 else 0b11
        kstOut := kstOf s.kfd } } ∧
      (L.width = 8 → raw.toNat < 256) ∧
      (∀ k f, (laneFields L)[k]? = some f →
        fieldOf (assemble s.cfg p L raw) f = laneAt s.inputs.fvIn k) ∧
      ∀ f ∈ L.fields, f.kind = .rsv → fieldOf (assemble s.cfg p L raw) f = 0

/-- R65: whatever the lanes hold, every bit of a reserved field is 0 in every value `RENC` outputs (the
rule is the spec's inference from R64). -/
def Obligations.ReservedBitsAreEncodedAsZero : Prop :=
  ∀ (s t : State) (p : Profile) (ctx : Ctx) (addr : Addr) (id : RegId) (L : Layout) (o : Outputs),
    Finds s p ctx addr id L → exec (.renc p ctx addr) s = .next t → t.out = some o → o.err = 0 →
    ∀ f ∈ L.fields, f.kind = .rsv → ∀ b, f.off ≤ b → b < f.off + f.w →
      (assemble s.cfg p L o.rawOut).getLsbD b = false

/-- R67: `RENC` reads no lane from `nf` on: with others there, it answers the same (decision D13). -/
def Obligations.LanesBeyondTheFieldsAreNotRead : Prop :=
  ∀ (s t : State) (p : Profile) (ctx : Ctx) (addr : Addr) (id : RegId) (L : Layout) (fv : Lanes),
    Finds s p ctx addr id L →
    (∀ k < (laneFields L).length, laneAt fv k = laneAt s.inputs.fvIn k) →
    exec (.renc p ctx addr) s = .next t →
    ∃ u, exec (.renc p ctx addr) { s with inputs := { s.inputs with fvIn := fv } } = .next u ∧
      u.out = t.out

/-- R37, R38: an 8-bit register moves as one byte and a 16-bit register as two, there is no other
width, and a 16-bit register is never half decoded and never half encoded. That `RDEC` refuses an
8-bit register's byte-valid bits other than 0b01 is R58 and R91 (decisions D13, D21). -/
def Obligations.RegistersMoveWholeOrNotAtAll : Prop :=
  ∀ (s : State) (p : Profile) (ctx : Ctx) (addr : Addr) (id : RegId) (L : Layout),
    Finds s p ctx addr id L →
    (L.width = 8 ∨ L.width = 16) ∧
    (∃ t o, exec (.rdec p ctx addr) s = .next t ∧ t.out = some o ∧
      (o.err = 0 ↔ s.inputs.bvIn = (if L.width = 8 then 0b01#2 else 0b11#2)) ∧
      (o.err ≠ 0 → o.err = 4 ∧ o.fvOut = Lanes.zero ∧ o.esOut = Lanes.zero)) ∧
    ∃ t o, exec (.renc p ctx addr) s = .next t ∧ t.out = some o ∧
      (o.err = 0 → o.bvOut = (if L.width = 8 then 0b01#2 else 0b11#2) ∧
        (L.width = 8 → o.rawOut.toNat < 256)) ∧
      (o.err ≠ 0 → o.bvOut = 0 ∧ o.rawOut = 0)

/-- R69: for every register and every raw value whose reserved bits are 0, encoding the decoded fields
gives the raw value back, its bytes in the same lanes (the spec's inference from R58 and R64). -/
def Obligations.EncodeOfDecodeGivesTheRawValue : Prop :=
  ∀ (s t : State) (p : Profile) (ctx : Ctx) (addr : Addr) (id : RegId) (L : Layout) (o : Outputs),
    Finds s p ctx addr id L →
    (∀ f ∈ L.fields, f.kind = .rsv → fieldOf (assemble s.cfg p L s.inputs.rawIn) f = 0) →
    exec (.rdec p ctx addr) s = .next t → t.out = some o → o.err = 0 →
    ∃ u o', exec (.renc p ctx addr) { t with inputs := { t.inputs with fvIn := o.fvOut } } = .next u ∧
      u.out = some o' ∧ o'.err = 0 ∧ o'.bvOut = s.inputs.bvIn ∧
      o'.rawOut.toNat =
        if L.width = 8 then s.inputs.rawIn.toNat % 256 else s.inputs.rawIn.toNat

/-- R70: for every register and all lanes that fit, decoding the encoded bytes gives the lanes back,
and 0 beyond the last field (the spec's inference from R58 and R64). -/
def Obligations.DecodeOfEncodeGivesTheLanes : Prop :=
  ∀ (s : State) (p : Profile) (ctx : Ctx) (addr : Addr) (id : RegId) (L : Layout),
    Finds s p ctx addr id L → LanesFit L s.inputs.fvIn →
    ∃ t o u o', exec (.renc p ctx addr) s = .next t ∧ t.out = some o ∧ o.err = 0 ∧
      exec (.rdec p ctx addr) { t with inputs :=
        { t.inputs with rawIn := o.rawOut, bvIn := o.bvOut } } = .next u ∧
      u.out = some o' ∧ o'.err = 0 ∧
      (∀ k < (laneFields L).length, laneAt o'.fvOut k = laneAt s.inputs.fvIn k) ∧
      ∀ k, (laneFields L).length ≤ k → laneAt o'.fvOut k = 0

/-! ## key_event_fifo_decoder -/

/-- R74, R75: `KEV.S` on the sentinel, ROW 7 and COLUMN 15 whatever RELEASE is, answers `EMPTY`, never
a key, ignores `more_in` and goes to `IDLE` (that 0xFF is the sentinel too is the spec's own reading,
decision D15). -/
def Obligations.KevSOnTheSentinelAnswersEmpty : Prop :=
  ∀ s : State, cfgWf s.cfg = true → s.inputs.busErrIn = false → s.inputs.bvIn = 0b01 →
    s.inputs.rawIn.toNat % 128 = 0x7F →
    exec .kevS s = .next { s with
      kfd := ⟨.idle, s.kfd.pc⟩
      out := some { Outputs.zero with
        kindOut := 2
        lostOut := s.inputs.lostIn
        kstOut := kstOf ⟨.idle, s.kfd.pc⟩ } }

/-- R74, R73, R77: `KEV.S` on a byte whose COLUMN is not 15 answers `KEY` with RELEASE, ROW and COLUMN,
the column's role (1 for `SFKEY`, 2 for `DEDICATED`), and chains by `more_in` (decisions D14, D17,
D30). -/
def Obligations.KevSOnAKeyAnswersItsFieldsAndRole : Prop :=
  ∀ (s : State) (next : KfdState), cfgWf s.cfg = true → s.inputs.busErrIn = false →
    s.inputs.bvIn = 0b01 → s.inputs.rawIn.toNat % 16 ≠ 15 →
    next = (if s.inputs.moreIn then .reading else .idle) →
    exec .kevS s = .next { s with
      kfd := ⟨next, s.kfd.pc⟩
      out := some { Outputs.zero with
        kindOut := 1
        relOut := s.inputs.rawIn.getLsbD 7
        rowOut := BitVec.ofNat 8 (s.inputs.rawIn.toNat / 16 % 8)
        colOut := BitVec.ofNat 8 (s.inputs.rawIn.toNat % 16)
        roleOut :=
          if s.inputs.rawIn.toNat % 16 < 12 then 0
          else if s.inputs.rawIn.toNat % 16 = 12 then (if s.cfg.colRole.c12 = .sfkey then 1 else 2)
          else if s.inputs.rawIn.toNat % 16 = 13 then (if s.cfg.colRole.c13 = .sfkey then 1 else 2)
          else (if s.cfg.colRole.c14 = .sfkey then 1 else 2)
        moreOut := s.inputs.moreIn
        lostOut := s.inputs.lostIn
        kstOut := kstOf ⟨next, s.kfd.pc⟩ } }

/-- R76: `KEV.S` on a byte whose COLUMN is 15 and whose ROW is not 7 answers `INVALID` with the fields,
no role, and chains by `more_in` like a key (decision D16). -/
def Obligations.KevSOnAnUndefinedCodeAnswersInvalid : Prop :=
  ∀ (s : State) (next : KfdState), cfgWf s.cfg = true → s.inputs.busErrIn = false →
    s.inputs.bvIn = 0b01 → s.inputs.rawIn.toNat % 16 = 15 → s.inputs.rawIn.toNat / 16 % 8 ≠ 7 →
    next = (if s.inputs.moreIn then .reading else .idle) →
    exec .kevS s = .next { s with
      kfd := ⟨next, s.kfd.pc⟩
      out := some { Outputs.zero with
        kindOut := 3
        relOut := s.inputs.rawIn.getLsbD 7
        rowOut := BitVec.ofNat 8 (s.inputs.rawIn.toNat / 16 % 8)
        colOut := 15
        moreOut := s.inputs.moreIn
        lostOut := s.inputs.lostIn
        kstOut := kstOf ⟨next, s.kfd.pc⟩ } }

/-- R80: `KEV.C` with a count of 0 answers `EMPTY` whatever the event byte and its byte-valid bits are,
and goes to `IDLE` (decision D17). -/
def Obligations.KevCWithCountZeroAnswersEmpty : Prop :=
  ∀ s : State, cfgWf s.cfg = true → s.inputs.busErrIn = false →
    s.inputs.countIn.toNat % 2 ^ s.cfg.countW = 0 →
    exec .kevC s = .next { s with
      kfd := ⟨s.kfd.ps, .idle⟩
      out := some { Outputs.zero with
        kindOut := 2
        lostOut := s.inputs.lostIn
        kstOut := kstOf ⟨s.kfd.ps, .idle⟩ } }

/-- R80, R81, R82: `KEV.C` with a count answers `KEY` for every event byte, its fields at the places of
`EVT_C`, role `MATRIX`, and chains when the count is at least 2 (decisions D14, D17, D28). -/
def Obligations.KevCWithACountAnswersAKey : Prop :=
  ∀ (s : State) (next : KfdState) (n e : Nat), cfgWf s.cfg = true → s.inputs.busErrIn = false →
    s.inputs.bvIn = 0b01 → n = s.inputs.countIn.toNat % 2 ^ s.cfg.countW → n ≠ 0 →
    e = s.inputs.rawIn.toNat % 256 → next = (if 2 ≤ n then .reading else .idle) →
    exec .kevC s = .next { s with
      kfd := ⟨s.kfd.ps, next⟩
      out := some { Outputs.zero with
        kindOut := 1
        relOut := decide (e / 2 ^ s.cfg.evtC.relBit % 2 = if s.cfg.evtC.relVal then 1 else 0)
        rowOut := BitVec.ofNat 8 (e / 2 ^ s.cfg.evtC.rowOff % 2 ^ s.cfg.evtC.rowW)
        colOut := BitVec.ofNat 8 (e / 2 ^ s.cfg.evtC.colOff % 2 ^ s.cfg.evtC.colW)
        roleOut := 0
        moreOut := decide (2 ≤ n)
        lostOut := s.inputs.lostIn
        kstOut := kstOf ⟨s.kfd.ps, next⟩ } }

/-- R71: a key-event command without an error answers `KEY`, `EMPTY` or `INVALID`, with `lost_out` beside
it; `NONE` stands only on an error and on other commands. -/
def Obligations.KindNoneOnlyOnErrorsAndOtherCommands : Prop :=
  ∀ (i : Instr) (s t : State) (o : Outputs), exec i s = .next t → t.out = some o →
    (o.kindOut = 0 ↔ keyProfile i = none ∨ o.err ≠ 0) ∧
    (o.kindOut ≠ 0 → o.lostOut = s.inputs.lostIn)

/-- R72: the table of next decoder states: an error leaves the state, and otherwise it is `READING`
exactly when `more_out` is 1; `EMPTY` and errors have `more_out` 0; `kst_out` bit 0 is 1 exactly when
PS's state after the command is `READING`, bit 1 when PC's is (R28; decisions D4, D19). -/
def Obligations.NextDecoderStateFollowsMoreOut : Prop :=
  ∀ (i : Instr) (s t : State) (o : Outputs) (p : Profile), keyProfile i = some p →
    exec i s = .next t → t.out = some o →
    (o.err ≠ 0 → t.kfd = s.kfd ∧ o.moreOut = false) ∧
    (o.err = 0 → t.kfd.get p = (if o.moreOut then .reading else .idle)) ∧
    (o.kindOut = 2 → o.moreOut = false) ∧
    (o.kstOut.getLsbD 0 = true ↔ t.kfd.ps = .reading) ∧
    (o.kstOut.getLsbD 1 = true ↔ t.kfd.pc = .reading)

/-- R78: the event-lost signal changes `lost_out` alone: not the outcome, not the fields, not the
state (decision D18). -/
def Obligations.LostSignalChangesLostOutAlone : Prop :=
  ∀ (i : Instr) (s t : State) (o : Outputs) (b : Bool), exec i s = .next t → t.out = some o →
    ∃ u o', exec i { s with inputs := { s.inputs with lostIn := b } } = .next u ∧
      u.out = some o' ∧ u.kfd = t.kfd ∧ { o' with lostOut := o.lostOut } = o ∧
      (o.kindOut ≠ 0 → o.lostOut = s.inputs.lostIn ∧ o'.lostOut = b)

/-- R26, R80: `KEV.C` ignores the count bits above `COUNT_W - 1` (decision D4). -/
def Obligations.CountBitsAboveItsWidthAreIgnored : Prop :=
  ∀ (s t : State) (count : Byte), exec .kevC s = .next t →
    count.toNat % 2 ^ s.cfg.countW = s.inputs.countIn.toNat % 2 ^ s.cfg.countW →
    ∃ u, exec .kevC { s with inputs := { s.inputs with countIn := count } } = .next u ∧
      u.out = t.out ∧ u.kfd = t.kfd

/-! ## Assembler lines -/

/-- R53, R46: a register command's line with numeric operands in range assembles to the command whose
word carries them, one out of range to none, and `KEV <p>` stands for the profile's key-event command
(decision D31). -/
def Obligations.AssembledOperandsStandInTheWord : Prop :=
  ∀ (c : Cfg) (p : Profile) (ctx addr : Nat),
    (∀ q ∈ [(Asm.rlook p (.pair ctx addr), 1), (Asm.rdec p (.pair ctx addr), 2),
        (Asm.renc p (.pair ctx addr), 3)],
      (q.1.wf = true → ∃ i, assembleLine c q.1 = some i ∧
        (encode i).toNat = q.2 * 8192 + (if p = .pc then 4096 else 0) + ctx * 1024 + addr) ∧
      (q.1.wf = false → assembleLine c q.1 = none)) ∧
    ∃ i, assembleLine c (.kev p) = some i ∧ keyProfile i = some p

/-- R53: in a line of each register command, a register name in the address's place stands for its
map entry: with the entry's context beside it where that context has the register at one address, alone
where the map has it at one pair; where there are several, it stands for no command (decision D31; the
two forms, and that a name of several places stands for none, are notes/assumptions/8.md). -/
def Obligations.RegisterNamesAssembleToTheirPlace : Prop :=
  ∀ (c : Cfg) (p : Profile) (e : MapEntry) (r : RegEntry), cfgWf c = true →
    e ∈ c.addressMap.get p → r ∈ c.regTable → r.id = e.reg →
    ∀ q ∈ [(Asm.rlook p, Instr.rlook p), (Asm.rdec p, Instr.rdec p), (Asm.renc p, Instr.renc p)],
      ((∀ e' ∈ c.addressMap.get p, e'.reg = e.reg → e'.ctx = e.ctx → e' = e) →
        assembleLine c (q.1 (.named e.ctx.toNat r.name)) = some (q.2 e.ctx e.addr)) ∧
      ((∀ e' ∈ c.addressMap.get p, e'.reg = e.reg → e' = e) →
        assembleLine c (q.1 (.name r.name)) = some (q.2 e.ctx e.addr)) ∧
      ∀ e' ∈ c.addressMap.get p, e'.reg = e.reg → e' ≠ e →
        (e'.ctx = e.ctx → assembleLine c (q.1 (.named e.ctx.toNat r.name)) = none) ∧
        assembleLine c (q.1 (.name r.name)) = none

/-! ## What an admitted configuration holds -/

/-- R23: the bus address constant is the datasheet address, halved where the profile's is shifted, and
no bit of it is lost in the 7 bits (decision D25, notes/assumptions/11.md). -/
def Obligations.BusAddressIsTheDatasheetAddressShiftedOnce : Prop :=
  ∀ (c : Cfg) (p : Profile), cfgWf c = true →
    (busAddr7 c p).toNat =
      if c.addrShift.get p then (c.busAddrDs.get p).toNat / 2 else (c.busAddrDs.get p).toNat

/-- What every admitted configuration holds, said on its lists. R15: registers of one map with one name
are one register. R18: a map holds KBDSIZE and each register so named has its layout. R19: PS's map
holds EVTCODE with its layout. R20: a map holds IRQST, each so named has `IRQST_LAYOUT`, 8 bits with the
four flags. R17 (f), R21: the map of one profile holds both 16-bit registers, no other register has 16
bits and the other profile reaches none. R22: a register holds a two-bit enumerated field of which two
codes give one state. That the model refuses a configuration without these, and what it takes from
names, are notes/assumptions/5.md and 14.md. -/
def Obligations.AdmittedConfigurationsHoldTheSourcesRegisters : Prop :=
  ∀ c : Cfg, cfgWf c = true →
    (∀ p r r', MapHolds c p r → MapHolds c p r' → r.name = r'.name → r = r') ∧
    (∃ p r, MapHolds c p r ∧ r.name = "KBDSIZE") ∧
    (∀ p r, MapHolds c p r → r.name = "KBDSIZE" →
      r.layout = ⟨8, [⟨"ROWSIZE", 4, 4, .num⟩, ⟨"COLSIZE", 0, 4, .num⟩]⟩) ∧
    (∃ r, MapHolds c .ps r ∧ r.name = "EVTCODE" ∧
      r.layout = ⟨8, [⟨"RELEASE", 7, 1, .num⟩, ⟨"ROW", 4, 3, .num⟩, ⟨"COLUMN", 0, 4, .num⟩]⟩) ∧
    (∃ p r, MapHolds c p r ∧ r.name = "IRQST") ∧
    (∀ p r, MapHolds c p r → r.name = "IRQST" → r.layout = c.irqstLayout) ∧
    c.irqstLayout.width = 8 ∧
    (∀ n ∈ ["GPIO", "TIMER", "KEYBOARD", "POWER_FAIL"],
      ∃ f ∈ c.irqstLayout.fields, f.name = n ∧ f.w = 1 ∧ f.kind = .num) ∧
    (∃ a b, MapHolds c c.pairRegs.profile a ∧ MapHolds c c.pairRegs.profile b ∧ a ≠ b ∧
      a.layout.width = 16 ∧ b.layout.width = 16 ∧
      (∀ r ∈ c.regTable, r.layout.width = 16 → r = a ∨ r = b) ∧
      ∀ p r, MapHolds c p r → r.layout.width = 16 → p = c.pairRegs.profile) ∧
    ∃ p r, MapHolds c p r ∧ ∃ f ∈ r.layout.fields, f.w = 2 ∧
      ∃ map : List Word, f.kind = .enum map ∧ map.length = 4 ∧
        ∃ j k, j < k ∧ k < 4 ∧ map[j]? = map[k]?
end

