-- ==== Sys2Proof/Laws/State.lean ====
section
/-! SUPPORT. What each update of the state does to each field, so that no proof unfolds one. -/

namespace Sys2Proof

variable {α : Type}

@[simp] theorem PerProfile.get_ps (x : PerProfile α) : x.get .ps = x.ps := rfl
@[simp] theorem PerProfile.get_pc (x : PerProfile α) : x.get .pc = x.pc := rfl
@[simp] theorem PerProfile.set_ps (x : PerProfile α) (v : α) : x.set .ps v = ⟨v, x.pc⟩ := rfl
@[simp] theorem PerProfile.set_pc (x : PerProfile α) (v : α) : x.set .pc v = ⟨x.ps, v⟩ := rfl

@[simp] theorem PerProfile.get_set_same (x : PerProfile α) (p : Profile) (v : α) :
    (x.set p v).get p = v := by cases p <;> rfl

theorem PerProfile.get_set_of_ne (x : PerProfile α) {p q : Profile} (v : α) (h : q ≠ p) :
    (x.set p v).get q = x.get q := by
  cases p <;> cases q <;> first | rfl | exact absurd rfl h

@[simp] theorem PerProfile.set_set (x : PerProfile α) (p : Profile) (v w : α) :
    (x.set p v).set p w = x.set p w := by cases p <;> rfl

end Sys2Proof

namespace Sys2Proof.Machine

variable (s : State) (o : Outputs) (k : PerProfile KfdState) (e : CmdError) (i : Inputs)
  (rest : List HostEvent) (c : Cfg)

@[simp] theorem complete_cfg : (complete s o k).cfg = s.cfg := rfl
@[simp] theorem complete_kfd : (complete s o k).kfd = k := rfl
@[simp] theorem complete_inputs : (complete s o k).inputs = s.inputs := rfl
@[simp] theorem complete_pending : (complete s o k).pending = s.pending := rfl
@[simp] theorem complete_out : (complete s o k).out = some { o with kstOut := kstOf k } := rfl

@[simp] theorem raiseError_cfg : (raiseError s e).cfg = s.cfg := rfl
@[simp] theorem raiseError_kfd : (raiseError s e).kfd = s.kfd := rfl
@[simp] theorem raiseError_inputs : (raiseError s e).inputs = s.inputs := rfl
@[simp] theorem raiseError_pending : (raiseError s e).pending = s.pending := rfl
@[simp] theorem raiseError_out : (raiseError s e).out =
    some { Outputs.zero with err := e.code, errInfo := e.info, kstOut := kstOf s.kfd } := rfl

@[simp] theorem resetBlock_cfg : (resetBlock s).cfg = s.cfg := rfl
@[simp] theorem resetBlock_kfd : (resetBlock s).kfd = ⟨.idle, .idle⟩ := rfl
@[simp] theorem resetBlock_inputs : (resetBlock s).inputs = s.inputs := rfl
@[simp] theorem resetBlock_pending : (resetBlock s).pending = s.pending := rfl
@[simp] theorem resetBlock_out : (resetBlock s).out = none := rfl

@[simp] theorem sample_cfg : (sample s i rest).cfg = s.cfg := rfl
@[simp] theorem sample_kfd : (sample s i rest).kfd = s.kfd := rfl
@[simp] theorem sample_inputs : (sample s i rest).inputs = i := rfl
@[simp] theorem sample_pending : (sample s i rest).pending = rest := rfl
@[simp] theorem sample_out : (sample s i rest).out = s.out := rfl

@[simp] theorem issue_cfg : (issue s i).cfg = s.cfg := rfl
@[simp] theorem issue_kfd : (issue s i).kfd = s.kfd := rfl
@[simp] theorem issue_pending : (issue s i).pending = [.command i] := rfl

@[simp] theorem resetWith_cfg : (State.resetWith c).cfg = c := rfl
@[simp] theorem resetWith_kfd : (State.resetWith c).kfd = ⟨.idle, .idle⟩ := rfl
@[simp] theorem resetWith_out : (State.resetWith c).out = none := rfl
@[simp] theorem resetWith_pending : (State.resetWith c).pending = [] := rfl

end Sys2Proof.Machine
end

