-- ==== Sys2Proof/Laws/Layout.lean ====
section
/-! SUPPORT. What a well-formed configuration and its layouts give (10_state.md rule R17). -/

namespace Sys2Proof.Machine

/-- What R17 (a) to (d) say of one layout, in the form proofs use: fields lie above one another. -/
structure Tiled (L : Layout) : Prop where
  width : L.width = 8 ∨ L.width = 16
  fits : ∀ f ∈ L.fields, 1 ≤ f.w ∧ f.off + f.w ≤ L.width
  stacked : L.fields.Pairwise (fun f g => g.off + g.w ≤ f.off)
  covers : ∀ b < L.width, ∃ f ∈ L.fields, f.off ≤ b ∧ b < f.off + f.w
  enums : ∀ f ∈ L.fields, enumTotal f = true

theorem stacked_of_apart_descending {fs : List Field}
    (apart : fs.Pairwise (fun f g => f.off + f.w ≤ g.off ∨ g.off + g.w ≤ f.off))
    (desc : fs.Pairwise (fun f g => g.off < f.off)) :
    fs.Pairwise (fun f g => g.off + g.w ≤ f.off) :=
  (apart.and desc).imp (fun h => by omega)

theorem tiled_of_layoutOk {L : Layout} (h : layoutOk L = true) : Tiled L := by
  simp only [layoutOk, layoutSizesOk, layoutTiles, layoutDescends, holdsBit, Bool.and_eq_true,
    Bool.or_eq_true, beq_iff_eq, decide_eq_true_eq, List.all_eq_true, List.any_eq_true,
    List.mem_range] at h
  obtain ⟨⟨⟨⟨⟨width, -⟩, fits⟩, apart, covers⟩, desc⟩, enums⟩ := h
  exact ⟨width, fits, stacked_of_apart_descending apart desc, covers, enums⟩

/-- Fields that lie above one another and are at least one bit wide are no more than their bits. -/
theorem length_le_of_stacked {fs : List Field} {n : Nat}
    (fits : ∀ f ∈ fs, 1 ≤ f.w ∧ f.off + f.w ≤ n)
    (stacked : fs.Pairwise (fun f g => g.off + g.w ≤ f.off)) : fs.length ≤ n := by
  induction fs generalizing n with
  | nil => exact Nat.zero_le n
  | cons f fs ih =>
    obtain ⟨below, rest⟩ := List.pairwise_cons.mp stacked
    have hf := fits f (by simp)
    have := ih (n := f.off)
      (fun g hg => ⟨(fits g (by simp [hg])).1, below g hg⟩) rest
    simp only [List.length_cons]
    omega

theorem laneFields_length_le (L : Layout) : (laneFields L).length ≤ L.fields.length :=
  List.length_filter_le _ _

theorem Tiled.laneFields_le_sixteen {L : Layout} (h : Tiled L) : (laneFields L).length ≤ 16 := by
  have h1 := length_le_of_stacked h.fits h.stacked
  have h2 := laneFields_length_le L
  rcases h.width with w | w <;> omega

theorem Tiled.fieldCount_toNat {L : Layout} (h : Tiled L) :
    (fieldCount L).toNat = (laneFields L).length := by
  have := h.laneFields_le_sixteen
  simp only [fieldCount, BitVec.toNat_ofNat]
  omega

theorem Tiled.widthBytes_eq {L : Layout} (h : Tiled L) :
    widthBytes L = if L.width = 8 then 1 else 2 := by
  rcases h.width with w | w <;> simp [widthBytes, w]

theorem Tiled.fits_sixteen {L : Layout} (h : Tiled L) :
    ∀ f ∈ L.fields, 1 ≤ f.w ∧ f.off + f.w ≤ 16 := by
  intro f hf
  have := h.fits f hf
  rcases h.width with w | w <;> omega

/-- The parts of `cfgWf` that the commands rest on. -/
structure CfgFacts (c : Cfg) : Prop where
  layouts : ∀ r ∈ c.regTable, layoutOk r.layout = true
  listed : ∀ p, ∀ e ∈ c.addressMap.get p, (layoutOf c e.reg).isSome = true
  mapKeys : ∀ p, (c.addressMap.get p).Pairwise (fun a b => ¬ (a.addr = b.addr ∧ a.ctx = b.ctx))
  tableKeys : c.regTable.Pairwise (fun a b => a.id ≠ b.id)
  evtC : evtCOk c.evtC = true
  countW : 1 ≤ c.countW ∧ c.countW ≤ 8
  busAddr : ∀ p, busAddrFits c p = true

theorem cfgFacts_of_wf {c : Cfg} (h : cfgWf c = true) : CfgFacts c := by
  simp only [cfgWf, layoutsOk, keysDistinct, idsListed, countWOk, Bool.and_eq_true, List.all_eq_true,
    List.mem_append, decide_eq_true_eq] at h
  obtain ⟨⟨⟨⟨⟨⟨⟨⟨⟨⟨⟨⟨⟨⟨layouts, keys⟩, listed⟩, -⟩, -⟩, -⟩, evtC⟩, countW⟩, -⟩, -⟩, -⟩, -⟩, -⟩, busPs⟩,
    busPc⟩ := h
  refine ⟨layouts, fun p e he => ?_, fun p => ?_, keys.2, evtC, countW, fun p => ?_⟩
  · cases p with
    | ps => exact listed e (.inl he)
    | pc => exact listed e (.inr he)
  · cases p with
    | ps => exact keys.1.1
    | pc => exact keys.1.2
  · cases p with
    | ps => exact busPs
    | pc => exact busPc

/-- In a well-formed configuration every layout of the table is tiled. -/
theorem tiled_of_layoutOf {c : Cfg} {id : RegId} {L : Layout} (h : cfgWf c = true)
    (hL : layoutOf c id = some L) : Tiled L := by
  simp only [layoutOf, Option.map_eq_some_iff] at hL
  obtain ⟨r, hr, rfl⟩ := hL
  exact tiled_of_layoutOk ((cfgFacts_of_wf h).layouts r (List.mem_of_find?_eq_some hr))

/-- In a well-formed configuration every id an address map names has a layout (R17 (e)). -/
theorem layoutOf_of_mapEntry {c : Cfg} {p : Profile} {ctx : Ctx} {addr : Addr} {id : RegId}
    (h : cfgWf c = true) (hm : mapEntry c p ctx addr = some id) : ∃ L, layoutOf c id = some L := by
  simp only [mapEntry, Option.map_eq_some_iff] at hm
  obtain ⟨e, he, rfl⟩ := hm
  exact Option.isSome_iff_exists.mp
    ((cfgFacts_of_wf h).listed p e (List.mem_of_find?_eq_some he))

/-! ### The association lists are functions (R15, R16) -/

/-- In a list of distinct keys the search for a key finds the entry that has it. -/
theorem find?_eq_some_of_distinct {α : Type} {l : List α} {same : α → α → Prop} {q : α → Bool} {a : α}
    (distinct : l.Pairwise (fun x y => ¬ same x y))
    (key : ∀ x, q x = true ↔ same x a) (ha : a ∈ l) (self : same a a) : l.find? q = some a := by
  induction l with
  | nil => cases ha
  | cons b l ih =>
    obtain ⟨apart, rest⟩ := List.pairwise_cons.mp distinct
    rcases List.mem_cons.mp ha with rfl | ha'
    · exact List.find?_cons_of_pos ((key a).mpr self)
    · rw [List.find?_cons_of_neg (by rw [key]; exact apart a ha')]
      exact ih rest ha'

/-- R15: of a well-formed configuration, an entry of the map is what the lookup of its key finds. -/
theorem mapEntry_of_mem {c : Cfg} {p : Profile} {e : MapEntry} (h : cfgWf c = true)
    (he : e ∈ c.addressMap.get p) : mapEntry c p e.ctx e.addr = some e.reg := by
  rw [mapEntry, find?_eq_some_of_distinct ((cfgFacts_of_wf h).mapKeys p)
    (fun x => by simp) he ⟨rfl, rfl⟩]
  rfl

/-- R16: of a well-formed configuration, an entry of the table is what its id finds. -/
theorem entryOf_of_mem {c : Cfg} {r : RegEntry} (h : cfgWf c = true) (hr : r ∈ c.regTable) :
    entryOf c r.id = some r :=
  find?_eq_some_of_distinct (cfgFacts_of_wf h).tableKeys (fun x => by simp) hr rfl

/-- The lookup of an id answers an entry of the table that has it. -/
theorem mem_of_entryOf {c : Cfg} {id : RegId} {r : RegEntry} (h : entryOf c id = some r) :
    r ∈ c.regTable ∧ r.id = id :=
  ⟨List.mem_of_find?_eq_some h, by simpa using List.find?_some h⟩

/-- R15, R16: the registers of a map are the table's rows that an entry of the map names. -/
theorem mem_registersOf {c : Cfg} {p : Profile} {r : RegEntry} (h : cfgWf c = true) :
    r ∈ registersOf c p ↔ r ∈ c.regTable ∧ ∃ e ∈ c.addressMap.get p, e.reg = r.id := by
  simp only [registersOf, List.mem_filterMap]
  constructor
  · rintro ⟨e, he, hr⟩
    obtain ⟨hm, hid⟩ := mem_of_entryOf hr
    exact ⟨hm, e, he, hid.symm⟩
  · rintro ⟨hm, e, he, hid⟩
    exact ⟨e, he, by rw [hid]; exact entryOf_of_mem h hm⟩

theorem layoutOf_of_mem {c : Cfg} {r : RegEntry} (h : cfgWf c = true) (hr : r ∈ c.regTable) :
    layoutOf c r.id = some r.layout := by
  rw [layoutOf, entryOf_of_mem h hr]
  rfl

/-- R23: of a well-formed configuration, the bus address constant is the formula's value whole. -/
theorem busAddr7_toNat {c : Cfg} (p : Profile) (h : cfgWf c = true) :
    (busAddr7 c p).toNat =
      if c.addrShift.get p then (c.busAddrDs.get p).toNat / 2 else (c.busAddrDs.get p).toNat := by
  have fits := (cfgFacts_of_wf h).busAddr p
  have small := (c.busAddrDs.get p).isLt
  simp only [busAddrFits, Bool.or_eq_true, decide_eq_true_eq] at fits
  unfold busAddr7
  split
  · simp only [BitVec.toNat_setWidth, BitVec.toNat_ushiftRight, Nat.shiftRight_eq_div_pow]
    omega
  · next hs =>
    simp only [BitVec.toNat_setWidth]
    rcases fits with hf | hf
    · exact absurd hf hs
    · omega

end Sys2Proof.Machine
end

