-- ==== Sys2Proof/Laws/Operands.lean ====
section
/-! SUPPORT. What the lookup, the byte lanes, a field's extraction and the encoder's field loop do. -/

namespace Sys2Proof.Machine

theorem lookup_of_miss {c : Cfg} {p : Profile} {ctx : Ctx} {addr : Addr}
    (h : mapEntry c p ctx addr = none) : lookup c p ctx addr = .error (.invalidAddress addr) := by
  simp only [lookup, h]

theorem lookup_of_entry {c : Cfg} {p : Profile} {ctx : Ctx} {addr : Addr} {id : RegId} {L : Layout}
    (h : mapEntry c p ctx addr = some id) (hL : layoutOf c id = some L) :
    lookup c p ctx addr = .ok (id, L) := by
  simp only [lookup, h, hL]

/-- R55: of a well-formed configuration, `LOOKUP` answers a register with its layout, or raises
`INVALID_ADDRESS` on a map miss, and nothing else. -/
theorem lookup_cases {c : Cfg} (p : Profile) (ctx : Ctx) (addr : Addr) (h : cfgWf c = true) :
    (mapEntry c p ctx addr = none ∧ lookup c p ctx addr = .error (.invalidAddress addr)) ∨
    ∃ id L, mapEntry c p ctx addr = some id ∧ layoutOf c id = some L ∧ Tiled L ∧
      lookup c p ctx addr = .ok (id, L) := by
  cases hm : mapEntry c p ctx addr with
  | none => exact .inl ⟨rfl, lookup_of_miss hm⟩
  | some id =>
    obtain ⟨L, hL⟩ := layoutOf_of_mapEntry h hm
    exact .inr ⟨id, L, rfl, hL, tiled_of_layoutOf h hL, lookup_of_entry hm hL⟩

/-! ### The byte lanes (R34, R56, R64) -/

/-- A bit of two bytes side by side, the type written as a word. -/
theorem getLsbD_bytes (hi lo : Byte) (b : Nat) :
    BitVec.getLsbD (w := 16) (hi ++ lo) b = if b < 8 then lo.getLsbD b else hi.getLsbD (b - 8) := by
  have h := BitVec.getLsbD_append (x := hi) (y := lo) (i := b)
  simpa using h

theorem getLsbD_lowLane (v : Word) (b : Nat) :
    (lowLane v).getLsbD b = (decide (b < 8) && v.getLsbD b) := by
  simp [lowLane]

theorem getLsbD_highLane (v : Word) (b : Nat) :
    (highLane v).getLsbD b = (decide (b < 8) && v.getLsbD (8 + b)) := by
  simp [highLane]

@[simp] theorem lowLane_append (hi lo : Byte) : lowLane (hi ++ lo) = lo := by
  apply BitVec.eq_of_getLsbD_eq
  intro b hb
  rw [getLsbD_lowLane, getLsbD_bytes]
  simp [hb]

@[simp] theorem highLane_append (hi lo : Byte) : highLane (hi ++ lo) = hi := by
  apply BitVec.eq_of_getLsbD_eq
  intro b hb
  rw [getLsbD_highLane, getLsbD_bytes]
  simp [hb]

@[simp] theorem highLane_append_lowLane (v : Word) : (highLane v ++ lowLane v : Word) = v := by
  apply BitVec.eq_of_getLsbD_eq
  intro b hb
  rw [getLsbD_bytes, getLsbD_lowLane, getLsbD_highLane]
  by_cases h : b < 8
  · simp [h]
  · have e : 8 + (b - 8) = b := by omega
    have e2 : b - 8 < 8 := by omega
    simp [h, e, e2]

theorem lanes_ext {v w : Word} (hi : highLane v = highLane w) (lo : lowLane v = lowLane w) :
    v = w := by
  rw [← highLane_append_lowLane v, hi, lo, highLane_append_lowLane]

/-- R64: `SPLIT` is the inverse of the assembly of R34. -/
theorem joinPair_splitPair (o : PairOrder) (v : Word) : joinPair o (splitPair o v) = v := by
  cases o <;> simp [joinPair, splitPair]

theorem splitPair_joinPair (o : PairOrder) (raw : Word) : splitPair o (joinPair o raw) = raw := by
  cases o <;> simp [joinPair, splitPair]

@[simp] theorem lowLane_setWidth (b : Byte) : lowLane (b.setWidth 16) = b := by
  apply BitVec.eq_of_getLsbD_eq
  intro k hk
  simp only [getLsbD_lowLane, BitVec.getLsbD_setWidth, hk, decide_true, Bool.true_and]
  simp [show k < 16 by omega]

@[simp] theorem highLane_setWidth (b : Byte) : highLane (b.setWidth 16) = 0 := by
  apply BitVec.eq_of_getLsbD_eq
  intro k hk
  simp [getLsbD_highLane]

/-- A value whose high byte is 0 is its low byte. -/
theorem setWidth_lowLane {v : Word} (h : highLane v = 0) : (lowLane v).setWidth 16 = v :=
  lanes_ext (by simp [h]) (by simp)

/-- R64, R56: an encoded value that fits the width is assembled back from its lanes. -/
theorem assemble_disassemble (c : Cfg) (p : Profile) (L : Layout) {v : Word}
    (h : L.width = 8 → highLane v = 0) : assemble c p L (disassemble c p L v) = v := by
  by_cases hw : L.width = 8
  · simp [assemble, disassemble, hw, setWidth_lowLane (h hw)]
  · simp [assemble, disassemble, hw, joinPair_splitPair]

/-- R56, R64: the lanes of a decoded value are the raw lanes, the unread one 0. -/
theorem disassemble_assemble (c : Cfg) (p : Profile) (L : Layout) (raw : Word) :
    disassemble c p L (assemble c p L raw) =
      if L.width = 8 then (lowLane raw).setWidth 16 else raw := by
  by_cases hw : L.width = 8
  · simp [assemble, disassemble, hw]
  · simp [assemble, disassemble, hw, splitPair_joinPair]

/-! ### Lanes and fields (R13, R27, R56) -/

@[simp] theorem laneAt_lanesOf (l : List Word) (k : Nat) :
    laneAt (lanesOf l) k = if k < 16 then l.getD k 0 else 0 := by
  by_cases h : k < 16
  · have hs : k < (lanesOf l).toList.length := by simp [h]
    simp only [laneAt, List.getD_eq_getElem?_getD, h, if_true, List.getElem?_eq_getElem hs]
    simp [lanesOf]
  · have hs : (lanesOf l).toList.length ≤ k := by simp; omega
    simp only [laneAt, List.getD_eq_getElem?_getD, List.getElem?_eq_none hs, h, if_false]
    rfl

/-- A port whose lanes come from the non-reserved fields, read at lane `k` (R58, R59). -/
theorem laneAt_map {L : Layout} (hL : Tiled L) (g : Field → Word) (k : Nat) :
    laneAt (lanesOf ((laneFields L).map g)) k = ((laneFields L)[k]?.map g).getD 0 := by
  have := hL.laneFields_le_sixteen
  rw [laneAt_lanesOf]
  by_cases hk : k < 16
  · simp [hk, List.getD_eq_getElem?_getD]
  · rw [if_neg hk, List.getElem?_eq_none (by omega)]
    rfl

@[simp] theorem laneAt_zero (k : Nat) : laneAt Lanes.zero k = 0 := by
  by_cases h : k < 16
  · interval_cases k <;> rfl
  · simp [laneAt, Lanes.zero, h]

theorem getLsbD_mask (w b : Nat) : (mask w).getLsbD b = (decide (b < 16) && decide (b < w)) := by
  simp [mask, BitVec.getLsbD_ofNat, Nat.testBit_two_pow_sub_one]

/-- R56: bit `b` of a field's value is bit `off + b` of the register. -/
theorem getLsbD_fieldOf (v : Word) (f : Field) (b : Nat) :
    (fieldOf v f).getLsbD b = (decide (b < f.w) && v.getLsbD (f.off + b)) := by
  rw [fieldOf, BitVec.getLsbD_and, BitVec.getLsbD_ushiftRight, getLsbD_mask]
  by_cases h : b < 16
  · simp [h, Bool.and_comm]
  · simp [h, show v.getLsbD (f.off + b) = false from BitVec.getLsbD_of_ge _ _ (by omega)]

theorem mask_toNat {w : Nat} (h : w ≤ 16) : (mask w).toNat = 2 ^ w - 1 := by
  have : 2 ^ w ≤ 2 ^ 16 := Nat.pow_le_pow_right (by omega) h
  simp only [mask, BitVec.toNat_ofNat]
  omega

/-- R64: a lane overflows a field of `w` bits exactly when it is `2^w` or more. -/
theorem mask_lt_iff {w : Nat} (h : w ≤ 16) (x : Word) : mask w < x ↔ 2 ^ w ≤ x.toNat := by
  have : 0 < 2 ^ w := Nat.pos_of_ne_zero (by positivity)
  rw [BitVec.lt_def, mask_toNat h]
  omega

/-- Two values with the same bits in a field have the same value there. -/
theorem fieldOf_congr {v v' : Word} {f : Field}
    (h : ∀ b, f.off ≤ b → b < f.off + f.w → v.getLsbD b = v'.getLsbD b) :
    fieldOf v f = fieldOf v' f := by
  apply BitVec.eq_of_getLsbD_eq
  intro b _
  rw [getLsbD_fieldOf, getLsbD_fieldOf]
  by_cases hb : b < f.w
  · simp [hb, h (f.off + b) (by omega) (by omega)]
  · simp [hb]

/-- A field of the value 0 is 0 (R63). -/
@[simp] theorem fieldOf_zero (f : Field) : fieldOf 0 f = 0 := by
  simp [fieldOf]

theorem fieldOf_lt {v : Word} {f : Field} (h : f.w ≤ 16) : (fieldOf v f).toNat < 2 ^ f.w := by
  have h2 : (fieldOf v f).toNat ≤ (mask f.w).toNat := by
    simp only [fieldOf, BitVec.toNat_and]
    exact Nat.and_le_right
  have : 0 < 2 ^ f.w := Nat.pos_of_ne_zero (by positivity)
  rw [mask_toNat h] at h2
  omega

/-! ### The encoder's field loop (R64) -/

theorem getLsbD_orShift {v x : Word} {off w b : Nat} (hx : x.toNat < 2 ^ w) (hb : b < 16)
    (hv : ∀ b, off ≤ b → b < off + w → v.getLsbD b = false) :
    (v ||| x <<< off).getLsbD b =
      if off ≤ b ∧ b < off + w then x.getLsbD (b - off) else v.getLsbD b := by
  simp only [BitVec.getLsbD_or, BitVec.getLsbD_shiftLeft, hb, decide_true, Bool.true_and]
  split
  · next h =>
    have : ¬ b < off := by omega
    simp [hv b h.1 h.2, this]
  · next h =>
    by_cases hlt : b < off
    · simp [hlt]
    · have hge : off + w ≤ b := by omega
      have : x.getLsbD (b - off) = false := by
        rw [← BitVec.testBit_toNat]
        exact Nat.testBit_lt_two_pow (lt_of_lt_of_le hx (Nat.pow_le_pow_right (by omega) (by omega)))
      simp [this]

/-- What the field loop has done once it answers a value (R64 to R66, R68): every lane fits its field
and stands in it unchanged, every reserved field has the bits it had, and so has every other bit. -/
theorem packFields_ok {fv : Lanes} {fs : List Field} {k : Nat} {v u : Word}
    (fits : ∀ f ∈ fs, 1 ≤ f.w ∧ f.off + f.w ≤ 16)
    (stacked : fs.Pairwise (fun f g => g.off + g.w ≤ f.off))
    (clear : ∀ f ∈ fs, ∀ b, f.off ≤ b → b < f.off + f.w → v.getLsbD b = false)
    (h : packFields fv fs k v = .ok u) :
    (∀ b < 16, (∀ f ∈ fs, ¬ (f.off ≤ b ∧ b < f.off + f.w)) → u.getLsbD b = v.getLsbD b) ∧
    (∀ j f, (fs.filter (fun f => !isRsv f))[j]? = some f →
      fieldOf u f = laneAt fv (k + j) ∧ (laneAt fv (k + j)).toNat < 2 ^ f.w) ∧
    (∀ f ∈ fs, isRsv f = true → fieldOf u f = 0) := by
  induction fs generalizing k v with
  | nil =>
    simp only [packFields, Except.ok.injEq] at h
    subst h
    simp
  | cons f fs ih =>
    obtain ⟨below, rest⟩ := List.pairwise_cons.mp stacked
    have hf := fits f (by simp)
    have fits' : ∀ g ∈ fs, 1 ≤ g.w ∧ g.off + g.w ≤ 16 := fun g hg => fits g (by simp [hg])
    have away : ∀ g ∈ fs, ∀ b, f.off ≤ b → ¬ (g.off ≤ b ∧ b < g.off + g.w) := by
      intro g hg b hb
      have := below g hg
      omega
    by_cases hr : isRsv f = true
    · rw [packFields, if_pos hr] at h
      obtain ⟨outside, lanes, reserved⟩ := ih fits' rest (fun g hg => clear g (by simp [hg])) h
      refine ⟨fun b hb hn => outside b hb (fun g hg => hn g (by simp [hg])), ?_, ?_⟩
      · simpa [hr] using lanes
      · intro g hg hgr
        rcases List.mem_cons.mp hg with rfl | hg
        · rw [show fieldOf u g = fieldOf 0 g from fieldOf_congr (fun b h1 h2 => by
            rw [outside b (by omega) (fun g' hg' => away g' hg' b h1), clear g (by simp) b h1 h2]
            simp), fieldOf_zero]
        · exact reserved g hg hgr
    · rw [packFields, if_neg hr] at h
      by_cases ho : mask f.w < laneAt fv k
      · rw [if_pos ho] at h
        exact absurd h (by simp)
      · rw [if_neg ho] at h
        have hx : (laneAt fv k).toNat < 2 ^ f.w := by
          rw [mask_lt_iff (by omega)] at ho
          omega
        have bits : ∀ b < 16, (v ||| laneAt fv k <<< f.off).getLsbD b =
            if f.off ≤ b ∧ b < f.off + f.w then (laneAt fv k).getLsbD (b - f.off)
            else v.getLsbD b :=
          fun b hb => getLsbD_orShift hx hb (clear f (by simp))
        obtain ⟨outside, lanes, reserved⟩ := ih fits' rest (by
          intro g hg b h1 h2
          have hg' := below g hg
          rw [bits b (by have := fits' g hg; omega), if_neg (by omega)]
          exact clear g (by simp [hg]) b h1 h2) h
        refine ⟨?_, ?_, ?_⟩
        · intro b hb hn
          rw [outside b hb (fun g hg => hn g (by simp [hg])), bits b hb, if_neg (hn f (by simp))]
        · intro j g hj
          rw [List.filter_cons_of_pos (by simp [hr])] at hj
          cases j with
          | zero =>
            simp only [List.getElem?_cons_zero, Option.some.injEq] at hj
            subst hj
            refine ⟨?_, hx⟩
            apply BitVec.eq_of_getLsbD_eq
            intro b hb
            rw [getLsbD_fieldOf]
            by_cases hbw : b < f.w
            · rw [outside (f.off + b) (by omega) (fun g hg => away g hg _ (by omega)),
                bits _ (by omega), if_pos (by omega)]
              simp [hbw]
            · have : (laneAt fv k).getLsbD b = false := by
                rw [← BitVec.testBit_toNat]
                exact Nat.testBit_lt_two_pow
                  (lt_of_lt_of_le hx (Nat.pow_le_pow_right (by omega) (by omega)))
              simp [hbw, this]
          | succ j =>
            have := lanes j g (by simpa using hj)
            rwa [show k + 1 + j = k + (j + 1) by omega] at this
        · intro g hg hgr
          rcases List.mem_cons.mp hg with rfl | hg
          · exact absurd hgr hr
          · exact reserved g hg hgr

/-- The field loop answers a value exactly when every lane fits its field (R64, R66). -/
theorem packFields_of_fits {fv : Lanes} {fs : List Field} {k : Nat} {v : Word}
    (fits : ∀ f ∈ fs, f.w ≤ 16)
    (lanes : ∀ j f, (fs.filter (fun f => !isRsv f))[j]? = some f →
      (laneAt fv (k + j)).toNat < 2 ^ f.w) : ∃ u, packFields fv fs k v = .ok u := by
  induction fs generalizing k v with
  | nil => exact ⟨v, rfl⟩
  | cons f fs ih =>
    have fits' : ∀ g ∈ fs, g.w ≤ 16 := fun g hg => fits g (by simp [hg])
    by_cases hr : isRsv f = true
    · rw [packFields, if_pos hr]
      exact ih fits' (by simpa [hr] using lanes)
    · rw [List.filter_cons_of_pos (by simp [hr])] at lanes
      have h0 := lanes 0 f (by simp)
      rw [packFields, if_neg hr, if_neg (by rw [mask_lt_iff (fits f (by simp))]; simpa using h0)]
      refine ih fits' (fun j g hj => ?_)
      rw [show k + 1 + j = k + (j + 1) by omega]
      exact lanes (j + 1) g (by simpa using hj)

/-- The field loop reports the lowest lane too wide for its field (R64, R92). -/
theorem packFields_overflow {fv : Lanes} {fs : List Field} {k j : Nat} {v : Word} {f : Field}
    (fits : ∀ f ∈ fs, f.w ≤ 16)
    (hj : (fs.filter (fun f => !isRsv f))[j]? = some f)
    (tooWide : 2 ^ f.w ≤ (laneAt fv (k + j)).toNat)
    (lower : ∀ i < j, ∀ g, (fs.filter (fun f => !isRsv f))[i]? = some g →
      (laneAt fv (k + i)).toNat < 2 ^ g.w) :
    packFields fv fs k v = .error (.fieldOverflow (k + j)) := by
  induction fs generalizing k j v with
  | nil => simp at hj
  | cons g fs ih =>
    have fits' : ∀ h ∈ fs, h.w ≤ 16 := fun h hh => fits h (by simp [hh])
    by_cases hr : isRsv g = true
    · rw [packFields, if_pos hr]
      exact ih fits' (by simpa [hr] using hj) tooWide (by simpa [hr] using lower)
    · rw [List.filter_cons_of_pos (by simp [hr])] at hj lower
      rw [packFields, if_neg hr]
      have hg := fits g (by simp)
      cases j with
      | zero =>
        simp only [List.getElem?_cons_zero, Option.some.injEq] at hj
        subst hj
        rw [if_pos (by rw [mask_lt_iff hg]; simpa using tooWide)]
        rfl
      | succ j =>
        have h0 := lower 0 (by omega) g (by simp)
        rw [if_neg (by rw [mask_lt_iff hg]; simpa using h0),
          ih (k := k + 1) (j := j) fits' (by simpa using hj)
            (by rwa [show k + 1 + j = k + (j + 1) by omega])
            (fun i hi h hh => by
              rw [show k + 1 + i = k + (i + 1) by omega]
              exact lower (i + 1) (by omega) h (by simpa using hh)),
          show k + 1 + j = k + (j + 1) by omega]

/-- R67: the field loop reads only the lanes of the non-reserved fields. -/
theorem packFields_congr {fv fv' : Lanes} {fs : List Field} {k : Nat} {v : Word}
    (h : ∀ j < (fs.filter (fun f => !isRsv f)).length, laneAt fv (k + j) = laneAt fv' (k + j)) :
    packFields fv fs k v = packFields fv' fs k v := by
  induction fs generalizing k v with
  | nil => rfl
  | cons f fs ih =>
    by_cases hr : isRsv f = true
    · rw [packFields, packFields, if_pos hr, if_pos hr]
      exact ih (by simpa [hr] using h)
    · rw [List.filter_cons_of_pos (by simp [hr])] at h
      have h0 : laneAt fv k = laneAt fv' k := by simpa using h 0 (by simp)
      rw [packFields, packFields, if_neg hr, if_neg hr, h0]
      split
      · rfl
      · refine ih (fun j hj => ?_)
        rw [show k + 1 + j = k + (j + 1) by omega]
        exact h (j + 1) (by simpa using hj)

end Sys2Proof.Machine
end

