-- ==== Sys2Proof/Laws/Ops.lean ====
section
/-! SUPPORT. What each ending of a command can do, said once, and the shape of every command. -/

namespace Sys2Proof.Machine

theorem goOn_of_wf {α : Type} {s : State} (t : α) (h : cfgWf s.cfg = true) : goOn s t = .next t := by
  simp [goOn, h]

theorem goOn_of_illFormed {α : Type} {s : State} (t : α) (h : cfgWf s.cfg = false) :
    goOn s t = .refused .illFormedConfiguration := by
  simp [goOn, h]

/-- R8: the block goes on only where its configuration is well formed. -/
theorem goOn_eq_next {α : Type} {s : State} {t u : α} (h : goOn s t = .next u) : cfgWf s.cfg = true ∧ u = t := by
  unfold goOn at h
  split at h
  · next hw => cases h; exact ⟨hw, rfl⟩
  · cases h

/-- How a register command ends: its result, or an error, and nothing else. -/
theorem finish_eq_next {s t : State} {r : Except CmdError Outputs} (h : finish s r = .next t) :
    cfgWf s.cfg = true ∧
      ((∃ o, r = .ok o ∧ t = complete s o s.kfd) ∨ ∃ e, r = .error e ∧ t = raiseError s e) := by
  obtain ⟨hw, rfl⟩ := goOn_eq_next h
  refine ⟨hw, ?_⟩
  cases r with
  | ok o => exact .inl ⟨o, rfl, rfl⟩
  | error e => exact .inr ⟨e, rfl, rfl⟩

theorem finish_ok {s : State} (h : cfgWf s.cfg = true) (o : Outputs) :
    finish s (.ok o) = .next (complete s o s.kfd) := goOn_of_wf _ h

theorem finish_error {s : State} (h : cfgWf s.cfg = true) (e : CmdError) :
    finish s (.error e) = .next (raiseError s e) := goOn_of_wf _ h

/-- How a key-event command ends: its result with its profile's next state, or an error. -/
theorem finishKey_eq_next {s t : State} {p : Profile} {r : Except CmdError (Outputs × KfdState)}
    (h : finishKey s p r = .next t) :
    cfgWf s.cfg = true ∧
      ((∃ o k, r = .ok (o, k) ∧ t = complete s o (s.kfd.set p k)) ∨
        ∃ e, r = .error e ∧ t = raiseError s e) := by
  obtain ⟨hw, rfl⟩ := goOn_eq_next h
  refine ⟨hw, ?_⟩
  cases r with
  | ok q => exact .inl ⟨q.1, q.2, rfl, rfl⟩
  | error e => exact .inr ⟨e, rfl, rfl⟩

theorem finishKey_ok {s : State} (p : Profile) (h : cfgWf s.cfg = true) (o : Outputs)
    (k : KfdState) : finishKey s p (.ok (o, k)) = .next (complete s o (s.kfd.set p k)) :=
  goOn_of_wf _ h

theorem finishKey_error {s : State} (p : Profile) (h : cfgWf s.cfg = true) (e : CmdError) :
    finishKey s p (.error e) = .next (raiseError s e) := goOn_of_wf _ h

/-- The error codes are 1 to 5 (R86). -/
theorem CmdError.code_ne_zero (e : CmdError) : e.code ≠ 0 := by cases e <;> simp [CmdError.code]

theorem CmdError.code_le (e : CmdError) : e.code.toNat ≤ 5 := by cases e <;> simp [CmdError.code]

end Sys2Proof.Machine
end

