-- ==== Sys2Proof/Laws/Commands.lean ====
section
/-! SUPPORT. What each command's result can be: one inversion lemma per command, which later proofs
cite instead of unfolding it, and the shape every next state has. -/

namespace Sys2Proof.Machine

/-- The map's and the table's entries are what the lookups of a register command answer (R55). -/
theorem entries_of_finds {s : State} {p : Profile} {ctx : Ctx} {addr : Addr} {id : RegId} {L : Layout}
    (h : Finds s p ctx addr id L) :
    mapEntry s.cfg p ctx addr = some id ∧ layoutOf s.cfg id = some L := by
  obtain ⟨hw, -, ⟨e, he, rfl, rfl, rfl⟩, r, hr, hid, rfl⟩ := h
  exact ⟨mapEntry_of_mem hw he, hid ▸ layoutOf_of_mem hw hr⟩

/-- A register a command finds has a tiled layout (R17). -/
theorem tiled_of_finds {s : State} {p : Profile} {ctx : Ctx} {addr : Addr} {id : RegId} {L : Layout}
    (h : Finds s p ctx addr id L) : Tiled L := tiled_of_layoutOf h.1 (entries_of_finds h).2

/-- A register a command finds is what `LOOKUP` answers (R55). -/
theorem lookup_of_finds {s : State} {p : Profile} {ctx : Ctx} {addr : Addr} {id : RegId}
    {L : Layout} (h : Finds s p ctx addr id L) : lookup s.cfg p ctx addr = .ok (id, L) :=
  lookup_of_entry (entries_of_finds h).1 (entries_of_finds h).2

/-- R57: `RLOOK` answers the register's header, or an error before any output. -/
theorem rlook_eq_ok {c : Cfg} {i : Inputs} {p : Profile} {ctx : Ctx} {addr : Addr} {o : Outputs}
    (h : rlook c i p ctx addr = .ok o) : i.busErrIn = false ∧
      ∃ id L, lookup c p ctx addr = .ok (id, L) ∧ o = regHeader id L := by
  unfold rlook at h
  split at h
  · cases h
  · next hb =>
    split at h
    · cases h
    · next id L hl => cases h; exact ⟨by simpa using hb, id, L, hl, rfl⟩

/-- R58: `RDEC` answers every non-reserved field of the assembled value, or an error. -/
theorem rdec_eq_ok {c : Cfg} {i : Inputs} {p : Profile} {ctx : Ctx} {addr : Addr} {o : Outputs}
    (h : rdec c i p ctx addr = .ok o) : i.busErrIn = false ∧
      ∃ id L, lookup c p ctx addr = .ok (id, L) ∧ i.bvIn = byteMask L ∧
        o = { regHeader id L with
          fvOut := lanesOf ((laneFields L).map (fieldOf (assemble c p L i.rawIn)))
          esOut := lanesOf ((laneFields L).map
            (fun f => stateOf f (fieldOf (assemble c p L i.rawIn) f))) } := by
  unfold rdec at h
  split at h
  · cases h
  · next hb =>
    split at h
    · cases h
    · next id L hl =>
      split at h
      · cases h
      · next hv => cases h; exact ⟨by simpa using hb, id, L, hl, not_not.mp hv, rfl⟩

/-- R64: `RENC` answers the packed lanes, or an error. -/
theorem renc_eq_ok {c : Cfg} {i : Inputs} {p : Profile} {ctx : Ctx} {addr : Addr} {o : Outputs}
    (h : renc c i p ctx addr = .ok o) : i.busErrIn = false ∧
      ∃ id L v, lookup c p ctx addr = .ok (id, L) ∧ packFields i.fvIn L.fields 0 0 = .ok v ∧
        o = { regHeader id L with rawOut := disassemble c p L v, bvOut := byteMask L } := by
  unfold renc at h
  split at h
  · cases h
  · next hb =>
    split at h
    · cases h
    · next id L hl =>
      split at h
      · cases h
      · next v hv => cases h; exact ⟨by simpa using hb, id, L, v, hl, hv, rfl⟩

/-- The outcomes of a key-event command (R71, R72): `EMPTY` leaves nothing pending, and `KEY` or
`INVALID` chain by `more_out`. -/
structure KeyOutcome (i : Inputs) (o : Outputs) (k : KfdState) : Prop where
  bus : i.busErrIn = false
  lost : o.lostOut = i.lostIn
  next : k = nextKfd o.moreOut
  ports : o = { Outputs.zero with
    kindOut := o.kindOut, relOut := o.relOut, rowOut := o.rowOut, colOut := o.colOut,
    roleOut := o.roleOut, moreOut := o.moreOut, lostOut := o.lostOut }
  kind : o.kindOut = KeyKind.key.code ∧ o.roleOut ≠ 3 ∨
    o.kindOut = KeyKind.invalid.code ∧ o.roleOut = 0 ∨
    o.kindOut = KeyKind.empty.code ∧ o.roleOut = 0 ∧ o.rowOut = 0 ∧ o.colOut = 0 ∧
      o.relOut = false ∧ o.moreOut = false

theorem Role.code_ne_three (r : Role) : r.code ≠ 3 := by cases r <;> decide

theorem kevS_eq_ok {c : Cfg} {i : Inputs} {o : Outputs} {k : KfdState}
    (h : kevS c i = .ok (o, k)) : i.bvIn = 0b01 ∧ KeyOutcome i o k := by
  unfold kevS at h
  split at h
  · cases h
  · next hb =>
    have hb' : i.busErrIn = false := by simpa using hb
    split at h
    · cases h
    · next hv =>
      refine ⟨not_not.mp hv, ?_⟩
      simp only at h
      split at h
      · cases h
        exact ⟨hb', rfl, rfl, rfl, .inr (.inr ⟨rfl, rfl, rfl, rfl, rfl, rfl⟩)⟩
      · split at h
        · cases h
          exact ⟨hb', rfl, rfl, rfl, .inr (.inl ⟨rfl, rfl⟩)⟩
        · cases h
          exact ⟨hb', rfl, rfl, rfl, .inl ⟨rfl, Role.code_ne_three _⟩⟩

theorem kevC_eq_ok {c : Cfg} {i : Inputs} {o : Outputs} {k : KfdState}
    (h : kevC c i = .ok (o, k)) :
    (eventCount c i.countIn = 0 ∨ i.bvIn = 0b01) ∧ KeyOutcome i o k := by
  unfold kevC at h
  split at h
  · cases h
  · next hb =>
    have hb' : i.busErrIn = false := by simpa using hb
    split at h
    · next hn =>
      cases h
      exact ⟨.inl hn, hb', rfl, rfl, rfl, .inr (.inr ⟨rfl, rfl, rfl, rfl, rfl, rfl⟩)⟩
    · split at h
      · cases h
      · next hv =>
        cases h
        exact ⟨.inr (not_not.mp hv), hb', rfl, rfl, rfl, .inl ⟨rfl, Role.code_ne_three .matrix⟩⟩

/-- The next states of a command: it writes its outputs, and a key-event command that raises no error
writes the state of its own profile; nothing else changes (R24, R50, R87). -/
theorem exec_eq_next {i : Instr} {s t : State} (h : exec i s = .next t) :
    cfgWf s.cfg = true ∧
      ((∃ e, t = raiseError s e) ∨
       (keyProfile i = none ∧ ∃ o, t = complete s o s.kfd) ∨
       ∃ p o k, keyProfile i = some p ∧ KeyOutcome s.inputs o k ∧
        t = complete s o (s.kfd.set p k)) := by
  cases i with
  | rlook p ctx addr =>
    obtain ⟨hw, ⟨o, -, rfl⟩ | ⟨e, -, rfl⟩⟩ := finish_eq_next h
    exacts [⟨hw, .inr (.inl ⟨rfl, o, rfl⟩)⟩, ⟨hw, .inl ⟨e, rfl⟩⟩]
  | rdec p ctx addr =>
    obtain ⟨hw, ⟨o, -, rfl⟩ | ⟨e, -, rfl⟩⟩ := finish_eq_next h
    exacts [⟨hw, .inr (.inl ⟨rfl, o, rfl⟩)⟩, ⟨hw, .inl ⟨e, rfl⟩⟩]
  | renc p ctx addr =>
    obtain ⟨hw, ⟨o, -, rfl⟩ | ⟨e, -, rfl⟩⟩ := finish_eq_next h
    exacts [⟨hw, .inr (.inl ⟨rfl, o, rfl⟩)⟩, ⟨hw, .inl ⟨e, rfl⟩⟩]
  | kevS =>
    obtain ⟨hw, ⟨o, k, ho, rfl⟩ | ⟨e, -, rfl⟩⟩ := finishKey_eq_next h
    exacts [⟨hw, .inr (.inr ⟨.ps, o, k, rfl, (kevS_eq_ok ho).2, rfl⟩)⟩, ⟨hw, .inl ⟨e, rfl⟩⟩]
  | kevC =>
    obtain ⟨hw, ⟨o, k, ho, rfl⟩ | ⟨e, -, rfl⟩⟩ := finishKey_eq_next h
    exacts [⟨hw, .inr (.inr ⟨.pc, o, k, rfl, (kevC_eq_ok ho).2, rfl⟩)⟩, ⟨hw, .inl ⟨e, rfl⟩⟩]

/-! ### Every command is one pure function of the configuration, the ports and the command (R25) -/

/-- What a command answers: an error, or its outputs with the decoder state it writes, if any. -/
def reply (c : Cfg) (i : Inputs) : Instr → Except CmdError (Outputs × Option (Profile × KfdState))
  | .rlook p ctx addr => (rlook c i p ctx addr).map (fun o => (o, none))
  | .rdec p ctx addr => (rdec c i p ctx addr).map (fun o => (o, none))
  | .renc p ctx addr => (renc c i p ctx addr).map (fun o => (o, none))
  | .kevS => (kevS c i).map (fun q => (q.1, some (.ps, q.2)))
  | .kevC => (kevC c i).map (fun q => (q.1, some (.pc, q.2)))

/-- The decoder states after a reply. -/
def kfdAfter (k : PerProfile KfdState) :
    Except CmdError (Outputs × Option (Profile × KfdState)) → PerProfile KfdState
  | .error _ => k
  | .ok (_, none) => k
  | .ok (_, some (p, k')) => k.set p k'

/-- The outputs of a reply, `kst_out` apart. -/
def portsOf : Except CmdError (Outputs × Option (Profile × KfdState)) → Outputs
  | .error e => { Outputs.zero with err := e.code, errInfo := e.info }
  | .ok (o, _) => o

/-- The state after a reply. -/
def settle (s : State) (r : Except CmdError (Outputs × Option (Profile × KfdState))) : State :=
  complete s (portsOf r) (kfdAfter s.kfd r)

/-- Every command is its reply, applied to the state if the configuration is well formed. -/
theorem exec_eq_settle (i : Instr) (s : State) :
    exec i s = goOn s (settle s (reply s.cfg s.inputs i)) := by
  cases i with
  | rlook p ctx addr =>
    simp only [exec, execRlook, finish, reply]
    cases rlook s.cfg s.inputs p ctx addr <;> rfl
  | rdec p ctx addr =>
    simp only [exec, execRdec, finish, reply]
    cases rdec s.cfg s.inputs p ctx addr <;> rfl
  | renc p ctx addr =>
    simp only [exec, execRenc, finish, reply]
    cases renc s.cfg s.inputs p ctx addr <;> rfl
  | kevS =>
    simp only [exec, execKevS, finishKey, reply]
    cases kevS s.cfg s.inputs <;> rfl
  | kevC =>
    simp only [exec, execKevC, finishKey, reply]
    cases kevC s.cfg s.inputs <;> rfl

@[simp] theorem settle_cfg (s : State) (r) : (settle s r).cfg = s.cfg := rfl
@[simp] theorem settle_inputs (s : State) (r) : (settle s r).inputs = s.inputs := rfl
@[simp] theorem settle_pending (s : State) (r) : (settle s r).pending = s.pending := rfl
@[simp] theorem settle_kfd (s : State) (r) : (settle s r).kfd = kfdAfter s.kfd r := rfl
@[simp] theorem settle_out (s : State) (r) :
    (settle s r).out = some { portsOf r with kstOut := kstOf (kfdAfter s.kfd r) } := rfl

/-- A step is the reset event, a decoded command, or an illegal word (R41, R48, R100). -/
theorem step_eq_next {s t : State} (h : step s = .next t) :
    (∃ rest, s.pending = .reset :: rest ∧ cfgWf s.cfg = true ∧
      t = resetBlock { s with pending := rest }) ∨
    ∃ i rest, s.pending = .command i :: rest ∧
      ((∃ k, decode i.cmd = .ok k ∧ exec k (sample s i rest) = .next t) ∨
       ∃ w, decode i.cmd = .error w ∧ cfgWf s.cfg = true ∧
        t = raiseError (sample s i rest) (.illegalCommand (highLane i.cmd))) := by
  unfold step at h
  split at h
  · unfold endRun at h
    split at h <;> cases h
  · next rest hp =>
    obtain ⟨hw, rfl⟩ := goOn_eq_next h
    exact .inl ⟨rest, hp, hw, rfl⟩
  · next i rest hp =>
    refine .inr ⟨i, rest, hp, ?_⟩
    unfold runCommand at h
    split at h
    · next k hk => exact .inl ⟨k, hk, h⟩
    · next w hw =>
      obtain ⟨hc, ⟨o, ho, -⟩ | ⟨e, he, rfl⟩⟩ := finish_eq_next h
      · cases ho
      · cases he
        exact .inr ⟨w, hw, hc, rfl⟩

/-- The reply to whatever word stands on `cmd`, `ILLEGAL_COMMAND` for an illegal one (R48, R88). -/
def replyTo (c : Cfg) (i : Inputs) : Except CmdError (Outputs × Option (Profile × KfdState)) :=
  match decode i.cmd with
  | .ok k => reply c i k
  | .error _ => .error (.illegalCommand (highLane i.cmd))

/-- A command of a well-formed block, legal or not, answers in its own step (R107). -/
theorem step_command {s : State} {i : Inputs} {rest : List HostEvent} (hw : cfgWf s.cfg = true)
    (hp : s.pending = .command i :: rest) :
    step s = .next (settle (sample s i rest) (replyTo s.cfg i)) := by
  simp only [step, hp, runCommand, sample_inputs, replyTo]
  cases hd : decode i.cmd with
  | ok k =>
    simp only
    rw [exec_eq_settle]
    exact goOn_of_wf _ hw
  | error w => exact goOn_of_wf _ hw

/-- A step goes on only where the configuration is well formed (R8). -/
theorem wf_of_step {s t : State} (h : step s = .next t) : cfgWf s.cfg = true := by
  rcases step_eq_next h with ⟨-, -, hw, -⟩ | ⟨i, rest, -, ⟨k, -, hk⟩ | ⟨w, -, hw, -⟩⟩
  · exact hw
  · exact (exec_eq_next hk).1
  · exact hw

/-! ### Runs (R109) -/

/-- The state after one command of a run. -/
def afterCommand (s : State) (i : Inputs) : State :=
  settle (sample (issue s i) i []) (replyTo s.cfg i)

/-- The result of one command of a run. -/
def resultOf (s : State) (i : Inputs) : Outputs :=
  { portsOf (replyTo s.cfg i) with kstOut := kstOf (kfdAfter s.kfd (replyTo s.cfg i)) }

@[simp] theorem afterCommand_cfg (s : State) (i : Inputs) : (afterCommand s i).cfg = s.cfg := rfl
@[simp] theorem afterCommand_kfd (s : State) (i : Inputs) :
    (afterCommand s i).kfd = kfdAfter s.kfd (replyTo s.cfg i) := rfl

theorem step_issue {s : State} (i : Inputs) (hw : cfgWf s.cfg = true) :
    step (issue s i) = .next (afterCommand s i) :=
  step_command (s := issue s i) hw rfl

/-- R28: `kst_out` shows the two states bit by bit. -/
theorem showsStates_kstOf (o : Outputs) (k : PerProfile KfdState) :
    ShowsStates { o with kstOut := kstOf k } k := by
  obtain ⟨ps, pc⟩ := k
  cases ps <;> cases pc <;> simp [ShowsStates, kstOf, readingBit]

/-- The empty run of a well-formed block. -/
theorem runCommands_nil {s : State} (hw : cfgWf s.cfg = true) :
    runCommands s [] = .next ([], s) := goOn_of_wf _ hw

/-- R8, R102: a block with an ill-formed configuration has no run. -/
theorem runCommands_of_illFormed {s : State} (hw : cfgWf s.cfg = false) (commands : List Inputs) :
    runCommands s commands = .refused .illFormedConfiguration := by
  cases commands with
  | nil => exact goOn_of_illFormed _ hw
  | cons i rest =>
    have hs : step (issue s i) = .refused .illFormedConfiguration := by
      simp only [step, issue, runCommand, sample_inputs]
      cases decode i.cmd with
      | ok k => simp only [exec_eq_settle]; exact goOn_of_illFormed _ hw
      | error w => exact goOn_of_illFormed _ hw
    rw [runCommands, hs]

/-- A run goes command by command: the first command's result, then those of the rest. -/
theorem runCommands_cons {s u : State} {i : Inputs} {rest : List Inputs} {results : List Outputs}
    (hw : cfgWf s.cfg = true) (h : runCommands (afterCommand s i) rest = .next (results, u)) :
    runCommands s (i :: rest) = .next (resultOf s i :: results, u) := by
  rw [runCommands, step_issue i hw]
  simp only [h]
  rfl

/-- What a run that answers results has done, command by command. -/
theorem runCommands_cons_eq_next {s u : State} {i : Inputs} {rest : List Inputs}
    {results : List Outputs} (h : runCommands s (i :: rest) = .next (results, u)) :
    cfgWf s.cfg = true ∧ ∃ more, results = resultOf s i :: more ∧
      runCommands (afterCommand s i) rest = .next (more, u) := by
  have hw : cfgWf s.cfg = true := by
    rw [runCommands] at h
    cases hs : step (issue s i) with
    | next t => exact wf_of_step (s := issue s i) hs
    | fault f => rw [hs] at h; cases h
    | refused r => rw [hs] at h; cases h
  rw [runCommands, step_issue i hw] at h
  cases hr : runCommands (afterCommand s i) rest with
  | next q => simp only [hr] at h; cases h; exact ⟨hw, q.1, rfl, rfl⟩
  | fault f => simp only [hr] at h; cases h
  | refused r => simp only [hr] at h; cases h

end Sys2Proof.Machine
end

