-- ==== Sys2Proof/Laws/Decode.lean ====
section
/-! SUPPORT. The fields of a packed command word, and what the decoder can answer. -/

namespace Sys2Proof

variable (op : BitVec 3) (p : Profile) (ctx : Ctx) (addr : Addr)

@[simp] theorem Profile.ofBit_bit : Profile.ofBit p.bit = p := by cases p <;> rfl
@[simp] theorem Profile.bit_ofBit (b : Bool) : (Profile.ofBit b).bit = b := by cases b <;> rfl

/-- Two bit fields side by side, as a number. -/
theorem toNat_append_eq {n m : Nat} (x : BitVec n) (y : BitVec m) :
    (x ++ y).toNat = x.toNat * 2 ^ m + y.toNat := by
  rw [BitVec.toNat_append, ← Nat.shiftLeft_add_eq_or_of_lt y.isLt, Nat.shiftLeft_eq]

/-- The packed word as a number: the fields of R46 at their places. -/
theorem packWord_toNat : (packWord op p ctx addr).toNat =
    op.toNat * 8192 + p.bit.toNat * 4096 + ctx.toNat * 1024 + addr.toNat := by
  have hb : (BitVec.ofBool p.bit).toNat = p.bit.toNat := by cases p <;> rfl
  refine (toNat_append_eq (op ++ BitVec.ofBool p.bit ++ ctx ++ 0b00#2) addr).trans ?_
  rw [toNat_append_eq, toNat_append_eq, toNat_append_eq, hb, BitVec.toNat_ofNat]
  omega

/-- Bits `off + n - 1` down to `off` of a word, as a number. -/
theorem toNat_field (w : Word) (off n : Nat) :
    (w.extractLsb' off n).toNat = w.toNat / 2 ^ off % 2 ^ n := by
  rw [BitVec.extractLsb'_toNat, Nat.shiftRight_eq_div_pow]

theorem packWord_bounds : op.toNat < 8 ∧ p.bit.toNat < 2 ∧ ctx.toNat < 4 ∧ addr.toNat < 256 :=
  ⟨op.isLt, by cases p <;> decide, ctx.isLt, addr.isLt⟩

theorem opField_packWord : opField (packWord op p ctx addr) = op := by
  have := packWord_bounds op p ctx addr
  apply BitVec.eq_of_toNat_eq
  rw [opField, toNat_field, packWord_toNat]
  omega

theorem ctxField_packWord : ctxField (packWord op p ctx addr) = ctx := by
  have := packWord_bounds op p ctx addr
  apply BitVec.eq_of_toNat_eq
  rw [ctxField, toNat_field, packWord_toNat]
  omega

theorem rsvField_packWord : rsvField (packWord op p ctx addr) = 0 := by
  have := packWord_bounds op p ctx addr
  apply BitVec.eq_of_toNat_eq
  rw [rsvField, toNat_field, packWord_toNat]
  change _ = 0
  omega

theorem addrField_packWord : addrField (packWord op p ctx addr) = addr := by
  have := packWord_bounds op p ctx addr
  apply BitVec.eq_of_toNat_eq
  rw [addrField, toNat_field, packWord_toNat]
  omega

theorem profileField_packWord : profileField (packWord op p ctx addr) = p := by
  have := packWord_bounds op p ctx addr
  have h : (packWord op p ctx addr).getLsbD 12 = p.bit := by
    rw [← BitVec.testBit_toNat, Nat.testBit_eq_decide_div_mod_eq, packWord_toNat]
    cases p <;> simp [Profile.bit] <;> omega
  rw [profileField, h, Profile.ofBit_bit]

/-- What the decoder can answer (R48): each command with the condition on its word's fields, or a
refusal of the word. -/
theorem decode_ok_cases {w : Word} {i : Instr} (h : decode w = .ok i) :
    rsvField w = 0 ∧
      (opField w = 1 ∧ i = .rlook (profileField w) (ctxField w) (addrField w) ∨
       opField w = 2 ∧ i = .rdec (profileField w) (ctxField w) (addrField w) ∨
       opField w = 3 ∧ i = .renc (profileField w) (ctxField w) (addrField w) ∨
       opField w = 4 ∧ ctxField w = 0 ∧ addrField w = 0 ∧
        (profileField w = .ps ∧ i = .kevS ∨ profileField w = .pc ∧ i = .kevC)) := by
  unfold decode at h
  split at h
  · cases h
  · next hr =>
    refine ⟨not_not.mp hr, ?_⟩
    split at h
    · next h1 => cases h; exact .inl ⟨h1, rfl⟩
    split at h
    · next h2 => cases h; exact .inr (.inl ⟨h2, rfl⟩)
    split at h
    · next h3 => cases h; exact .inr (.inr (.inl ⟨h3, rfl⟩))
    split at h
    · next h4 =>
      split at h
      · cases h
      · next hz =>
        obtain ⟨hc, ha⟩ := not_or.mp hz
        refine .inr (.inr (.inr ⟨h4, not_not.mp hc, not_not.mp ha, ?_⟩))
        split at h
        · next hp => cases h; exact .inl ⟨hp, rfl⟩
        · next hp => cases h; exact .inr ⟨hp, rfl⟩
    · cases h

end Sys2Proof
end

