-- ==== Sys2Proof/Laws/PerInstr.lean ====
section
/-! SUPPORT. Facts about every command as syntax, one lemma per constructor (LAWS.json). -/

namespace Sys2Proof.Laws.ReservedBits

/-- R46: a command's word has its reserved bits 9:8 clear. -/
def Statement (i : Instr) : Prop := rsvField (encode i) = 0

theorem rlook (p : Profile) (ctx : Ctx) (addr : Addr) : Statement (.rlook p ctx addr) :=
  rsvField_packWord _ _ _ _

theorem rdec (p : Profile) (ctx : Ctx) (addr : Addr) : Statement (.rdec p ctx addr) :=
  rsvField_packWord _ _ _ _

theorem renc (p : Profile) (ctx : Ctx) (addr : Addr) : Statement (.renc p ctx addr) :=
  rsvField_packWord _ _ _ _

theorem kevS : Statement .kevS := rsvField_packWord _ _ _ _

theorem kevC : Statement .kevC := rsvField_packWord _ _ _ _

end Sys2Proof.Laws.ReservedBits
end

