-- ==== Sys2Proof/Tests/Slice0.lean ====
section
/-! SUPPORT. Tests of the model against the vectors of spec/95_test_vectors.md and the encodings of
30_encoding.md, the refusal of ill-formed terms and configurations, and for each obligation with
hypotheses a state that meets them together (`witness_…`). -/

namespace Sys2Proof.Tests

open Sys2Proof.Machine

/-! ## Helpers -/

/-- Input ports with everything unlisted 0, as the vectors write them. -/
def ports (cmd raw : Word) (bv : BitVec 2) : Inputs :=
  { Inputs.zero with cmd := cmd, rawIn := raw, bvIn := bv }

/-- The input ports of an encode: lanes 0, 1, … from a list. -/
def lanePorts (cmd : Word) (fv : List Word) : Inputs :=
  { Inputs.zero with cmd := cmd, fvIn := lanesOf fv }

/-- The block under TC, right after reset, with these ports sampled. -/
def tcState (i : Inputs) : State := { State.resetWith testConfig with inputs := i }

/-- The block under TC with these events of the host to come. -/
def tcPending (l : List HostEvent) : State := { State.resetWith testConfig with pending := l }

/-- The results of a run under TC. -/
def tcResults (l : List Inputs) : Option (List Outputs) :=
  (observation testConfig l).map (·.1)

/-- The records of the first drain of a profile in a run under TC. -/
def tcRecords (p : Profile) (l : List Inputs) : Option (List Outputs) :=
  (tcResults l).map (fun results => drainRecords p (l.zip results))

/-- TC with the register table changed. -/
def withTable (f : RegEntry → RegEntry) : Cfg :=
  { testConfig with regTable := testConfig.regTable.map f }

/-- TC with a further entry in PC's map. -/
def withPcEntry (e : MapEntry) : Cfg :=
  { testConfig with addressMap := { testConfig.addressMap with pc := e :: testConfig.addressMap.pc } }

/-- TC with a further, unmapped register of this layout. -/
def withLayout (L : Layout) : Cfg :=
  { testConfig with regTable := testConfig.regTable ++ [⟨20, "EXTRA", L⟩] }

/-! ## The configuration check (R17): TC is well formed, and each check refuses an ill-formed term -/

theorem testConfig_wf : cfgWf testConfig = true := by decide

theorem test_flat_extra_register_is_admitted : cfgWf (withLayout (flatLayout 8)) = true := by decide

theorem test_wf_refuses_width_twelve :
    layoutSizesOk (flatLayout 12) = false ∧ cfgWf (withLayout (flatLayout 12)) = false := by decide

theorem test_wf_refuses_field_past_the_width :
    layoutSizesOk ⟨8, [⟨"A", 4, 5, .num⟩, ⟨"B", 0, 4, .num⟩]⟩ = false ∧
      layoutSizesOk ⟨8, []⟩ = false ∧ layoutSizesOk ⟨8, [⟨"A", 0, 0, .num⟩]⟩ = false := by decide

theorem test_wf_refuses_gap_and_overlap :
    layoutTiles ⟨8, [⟨"A", 4, 4, .num⟩, ⟨"B", 0, 3, .num⟩]⟩ = false ∧
      layoutTiles ⟨8, [⟨"A", 4, 4, .num⟩, ⟨"B", 0, 5, .num⟩]⟩ = false ∧
      cfgWf (withLayout ⟨8, [⟨"A", 4, 4, .num⟩, ⟨"B", 0, 3, .num⟩]⟩) = false := by decide

theorem test_wf_refuses_low_field_first :
    layoutDescends ⟨8, [⟨"B", 0, 4, .num⟩, ⟨"A", 4, 4, .num⟩]⟩ = false ∧
      cfgWf (withLayout ⟨8, [⟨"B", 0, 4, .num⟩, ⟨"A", 4, 4, .num⟩]⟩) = false := by decide

theorem test_wf_refuses_code_without_state :
    enumTotal ⟨"A", 0, 2, .enum [0, 1, 2]⟩ = false ∧
      cfgWf (withLayout ⟨8, [⟨"", 2, 6, .rsv⟩, ⟨"A", 0, 2, .enum [0, 1, 2]⟩]⟩) = false := by decide

theorem test_wf_refuses_two_entries_of_one_key :
    cfgWf { testConfig with addressMap :=
      { testConfig.addressMap with pc := ⟨0x50, 0, 1⟩ :: testConfig.addressMap.pc } } = false ∧
    cfgWf { testConfig with regTable :=
      testConfig.regTable ++ [⟨9, "AGAIN", flatLayout 8⟩] } = false := by decide

theorem test_wf_refuses_unlisted_id :
    cfgWf { testConfig with addressMap :=
      { testConfig.addressMap with pc := ⟨0x51, 0, 99⟩ :: testConfig.addressMap.pc } } = false := by
  decide

theorem test_wf_refuses_third_pair :
    pairRegsOk (withLayout (flatLayout 16)) = false ∧ cfgWf (withLayout (flatLayout 16)) = false := by
  decide

theorem test_wf_refuses_pair_in_both_profiles :
    cfgWf { testConfig with addressMap :=
      { testConfig.addressMap with ps := ⟨0x40, 0, 7⟩ :: testConfig.addressMap.ps } } = false := by
  decide

theorem test_wf_refuses_pair_at_255 :
    cfgWf { testConfig with addressMap :=
      { testConfig.addressMap with pc := ⟨0xFF, 0, 7⟩ :: testConfig.addressMap.pc } } = false ∧
    cfgWf { testConfig with addressMap :=
      { testConfig.addressMap with pc := ⟨0xFE, 0, 7⟩ :: testConfig.addressMap.pc } } = true := by
  decide

/-- An entry at the second address of the pair at 0x40 is admitted (notes/assumptions/16.md). -/
theorem test_wf_admits_second_address_of_pair :
    cfgWf (withPcEntry ⟨0x41, 0, 7⟩) = true ∧ cfgWf (withPcEntry ⟨0x41, 0, 9⟩) = true ∧
      mapEntry (withPcEntry ⟨0x41, 0, 9⟩) .pc 0 0x41 = some 9 := by decide

/-- R18: no register KBDSIZE, KBDSIZE with another layout, KBDSIZE in no map. -/
theorem test_wf_refuses_table_without_kbdsize :
    fixedLayoutsPresent (withTable (fun r => if r.id = 1 then { r with name := "OTHER" } else r)) = false ∧
      fixedLayoutsPresent (withTable (fun r =>
        if r.id = 1 then { r with layout := flatLayout 8 } else r)) = false ∧
      fixedLayoutsPresent { testConfig with addressMap :=
        { testConfig.addressMap with ps := testConfig.addressMap.ps.tail } } = false := by decide

/-- R19: an EVTCODE that PC's map alone holds is not PS's; another EVTCODE of PC is its own register. -/
theorem test_wf_refuses_evtcode_outside_ps :
    fixedLayoutsPresent { testConfig with addressMap :=
      ⟨testConfig.addressMap.ps.filter (·.reg != 2), ⟨0x60, 0, 2⟩ :: testConfig.addressMap.pc⟩ } = false ∧
    cfgWf { withPcEntry ⟨0x60, 0, 21⟩ with regTable :=
      testConfig.regTable ++ [⟨21, "EVTCODE", flatLayout 8⟩] } = true := by decide

/-- R15: two registers of PC's map with one name; one register at two addresses is no breach. -/
theorem test_wf_refuses_one_name_twice :
    namesUnique (withTable (fun r => if r.id = 9 then { r with name := "PAIRA" } else r)) .pc = false ∧
      cfgWf (withTable (fun r => if r.id = 9 then { r with name := "PAIRA" } else r)) = false ∧
      cfgWf (withPcEntry ⟨0x52, 0, 9⟩) = true := by decide

/-- R17 (f), R21: the pair's profile must reach both registers. -/
theorem test_wf_refuses_unreached_pair :
    pairRegsOk { testConfig with addressMap :=
      { testConfig.addressMap with pc := testConfig.addressMap.pc.tail } } = false := by decide

/-- R20: a layout that is not `IRQST_LAYOUT`, and one without the flags. -/
theorem test_wf_refuses_irqst :
    irqstOk { testConfig with irqstLayout := flatLayout 8 } = false ∧
      irqstOk { withTable (fun r => if r.id = 3 then { r with layout := flatLayout 8 } else r) with
        irqstLayout := flatLayout 8 } = false ∧
      irqstOk (withTable (fun r => if r.id = 3 then { r with name := "OTHER" } else r)) = false := by decide

/-- R22: no two codes of the one enumerated field give one state. -/
theorem test_wf_refuses_no_alias :
    aliasFieldPresent (withTable (fun r => if r.id = 6 then
      { r with layout := ⟨8, [⟨"PULL", 6, 2, .enum [0, 1, 2, 3]⟩, ⟨"", 0, 6, .rsv⟩]⟩ } else r)) = false := by
  decide

/-- R23: PC's address is not shifted, so it has 7 bits; PS's is. -/
theorem test_wf_refuses_wide_bus_address :
    cfgWf { testConfig with busAddrDs := ⟨0x88, 0x80⟩ } = false ∧
      cfgWf { testConfig with busAddrDs := ⟨0xFF, 0x7F⟩ } = true := by decide

/-- R8, R102: even the empty run of an ill-formed block has no observation. -/
theorem test_no_observation_of_ill_formed_block :
    observation { testConfig with countW := 0 } [] = none ∧ (observation testConfig []).isSome = true := by
  decide

theorem test_wf_refuses_event_record :
    evtCOk { testConfig.evtC with colW := 5 } = false ∧
      evtCOk { testConfig.evtC with rowW := 0 } = false ∧
      evtCOk { testConfig.evtC with relBit := 8 } = false ∧
      cfgWf { testConfig with evtC := { testConfig.evtC with colW := 5 } } = false := by decide

theorem test_wf_refuses_count_width :
    cfgWf { testConfig with countW := 0 } = false ∧ cfgWf { testConfig with countW := 9 } = false ∧
      cfgWf { testConfig with countW := 8 } = true := by decide

theorem test_wf_refuses_two_shifts :
    cfgWf { testConfig with addrShift := ⟨true, true⟩ } = false ∧
      cfgWf { testConfig with addrShift := ⟨false, false⟩ } = false := by decide

/-- TC's bus addresses (95_test_vectors.md section 0) and its IRQST flags (R20). -/
theorem test_tc_bus_addresses_and_irqst :
    busAddr7 testConfig .ps = 0x44 ∧ busAddr7 testConfig .pc = 0x34 ∧
      irqstFlagsOk testConfig.irqstLayout = true ∧
      enumMaps testConfig = [(6, "PULL", [0, 1, 2, 0])] := by decide

/-! ## Assembler terms (R53) -/

theorem test_asm_refuses_context_four : (Asm.rdec .ps (.pair 4 0)).wf = false ∧
    (AsmLoc.pair 4 0).ctxOk = false ∧ (Asm.rdec .ps (.pair 3 0)).wf = true := by decide

theorem test_asm_refuses_address_256 : (Asm.renc .pc (.pair 0 256)).wf = false ∧
    (AsmLoc.pair 0 256).addrOk = false ∧ (Asm.rlook .pc (.pair 0 255)).wf = true := by decide

/-- R53: a register name stands for its pair, `KEV PC` for `KEV.C`. -/
theorem test_asm_names : assembleLine testConfig (.rlook .ps (.name "MFGCODE")) =
      some (.rlook .ps 1 0x20) ∧
    assembleLine testConfig (.rlook .pc (.name "MFGCODE")) = none ∧
    assembleLine testConfig (.kev .pc) = some .kevC := by decide

/-- R53: a context beside a name; a register at two addresses has no one place, at two contexts the
context picks one. -/
theorem test_asm_context_and_name :
    assembleLine testConfig (.renc .ps (.named 1 "MFGCODE")) = some (.renc .ps 1 0x20) ∧
    assembleLine testConfig (.renc .ps (.named 0 "MFGCODE")) = none ∧
    assembleLine testConfig (.renc .ps (.named 4 "MFGCODE")) = none ∧
    assembleLine (withPcEntry ⟨0x52, 0, 9⟩) (.rdec .pc (.named 0 "PCSTATUS")) = none ∧
    assembleLine (withPcEntry ⟨0x52, 1, 9⟩) (.rdec .pc (.name "PCSTATUS")) = none ∧
    assembleLine (withPcEntry ⟨0x52, 1, 9⟩) (.rdec .pc (.named 1 "PCSTATUS")) =
      some (.rdec .pc 1 0x52) := by decide

/-! ## Decoding: words written out bit by bit from R46 and R47 -/

/-- `op` 001, `p` 1, `ctx` 10, `rsv` 00, `addr` 0x80 (R54). -/
theorem test_decode_rlook :
    decode 0b001_1_10_00_10000000#16 = .ok (.rlook .pc 2 0x80) := by decide

/-- `op` 010, `p` 1, `ctx` 01, `addr` 0xFE (R54). -/
theorem test_decode_rdec : decode 0b010_1_01_00_11111110#16 = .ok (.rdec .pc 1 0xFE) := by decide

/-- `op` 011, `p` 0, `ctx` 11, `addr` 0x10 (RE-15). -/
theorem test_decode_renc : decode 0b011_0_11_00_00010000#16 = .ok (.renc .ps 3 0x10) := by decide

theorem test_decode_key_events :
    decode 0b100_0_00_00_00000000#16 = .ok .kevS ∧ decode 0b100_1_00_00_00000000#16 = .ok .kevC := by
  decide

/-- CD-1 to CD-6, KS-17, KS-18: the illegal space. -/
theorem test_decode_illegal :
    decode 0x0000 = .error .opcode ∧ decode 0xA010 = .error .opcode ∧
    decode 0xC000 = .error .opcode ∧ decode 0xE000 = .error .opcode ∧
    decode 0x4210 = .error .reservedBits ∧ decode 0x9080 = .error .keyEventOperand ∧
    decode 0x8001 = .error .keyEventOperand ∧ decode 0x8400 = .error .keyEventOperand := by decide

/-- The table's match words, and a word of more bits than any command has. -/
theorem test_decodeTableWord :
    decodeTableWord 16 0x2000 = some (.rlook .ps 0 0) ∧ decodeTableWord 16 0x9000 = some .kevC ∧
    decodeTableWord 16 0x0000 = none ∧ decodeTableWord 32 0x2000 = none := by decide

/-! ## One command, against the vectors -/

/-- RL-2, RL-3: one address, two contexts, two registers. -/
theorem test_rlook_contexts :
    (tcResults [ports 0x2020 0 0, ports 0x2420 0 0]).map (·.map (·.regOut)) = some [4, 5] := by decide

/-- RL-7: the second byte of a pair is a map miss. -/
theorem test_rlook_second_byte_of_pair :
    (tcResults [ports 0x3041 0 0]).map (·.map (fun o => (o.err, o.errInfo))) = some [(3, 0x41)] := by
  decide

/-- RD-14: the byte at 0x40 is the high one; RD-15: a half pair is refused. -/
theorem test_rdec_pair :
    (tcResults [ports 0x5040 0xCDAB 0b11, ports 0x5040 0x00AB 0b01]).map
      (·.map (fun o => (o.err, o.errInfo, o.wOut, o.fvOut))) =
    some [(0, 0, 2, lanesOf [0xA, 0xBC]), (4, 1, 0, lanesOf [])] := by decide

/-- RD-11: code 3 stands for state 0 and stays code 3. -/
theorem test_rdec_shared_state :
    (tcResults [ports 0x4030 0x00C0 0b01]).map (·.map (fun o => (o.fvOut, o.esOut))) =
    some [(lanesOf [3], lanesOf [0])] := by decide

/-- RE-8, RE-10: reserved bits are 0, both bytes come at once. -/
theorem test_renc_reserved_and_pair :
    (tcResults [lanePorts 0x6012 [1, 1, 1, 1], lanePorts 0x7040 [0xA, 0xBC]]).map
      (·.map (fun o => (o.rawOut, o.bvOut))) = some [(0x00C6, 0b01), (0xC0AB, 0b11)] := by decide

/-- RE-4, RE-7: the lowest wide lane is reported and no byte is output. -/
theorem test_renc_overflow :
    (tcResults [lanePorts 0x6010 [16, 16], lanePorts 0x6011 [0, 8, 0]]).map
      (·.map (fun o => (o.err, o.errInfo, o.rawOut, o.bvOut))) =
    some [(5, 0, 0, 0), (5, 1, 0, 0)] := by decide

/-- KS-8: a tagged column in row 7 is a key, not the sentinel; KS-4: the sentinel ignores `more_in`. -/
theorem test_kevS_tagged_and_sentinel :
    (tcResults [ports 0x8000 0x7E 0b01, { ports 0x8000 0x7F 0b01 with moreIn := true }]).map
      (·.map (fun o => (o.kindOut, o.rowOut, o.colOut, o.roleOut, o.moreOut))) =
    some [(1, 7, 14, 2, false), (2, 0, 0, 0, false)] := by decide

/-- KS-10: column 15 in row 0 is undefined and chains. -/
theorem test_kevS_undefined_code :
    (tcResults [{ ports 0x8000 0x0F 0b01 with moreIn := true }]).map
      (·.map (fun o => (o.kindOut, o.colOut, o.roleOut, o.moreOut, o.kstOut))) =
    some [(3, 15, 0, true, 0b01)] := by decide

/-- KC-5, KC-6: no sentinel byte on PC, and count bits above bit 4 are ignored. -/
theorem test_kevC_maximum_and_wrapped_count :
    (tcResults [{ ports 0x9000 0x7F 0b01 with countIn := 31 },
      { ports 0x9000 0x23 0b01 with countIn := 32 }]).map
      (·.map (fun o => (o.kindOut, o.colOut, o.moreOut, o.kstOut))) =
    some [(1, 15, true, 0b10), (2, 0, false, 0b00)] := by decide

/-- KC-8, KC-12: RELEASE, and a failed read that leaves the state. -/
theorem test_kevC_release_and_bus_error :
    (tcResults [{ ports 0x9000 0xA3 0b01 with countIn := 2 },
      { ports 0x9000 0x23 0b01 with countIn := 2, busErrIn := true }]).map
      (·.map (fun o => (o.err, o.relOut, o.rowOut, o.kstOut))) =
    some [(0, true, 2, 0b10), (2, false, 0, 0b10)] := by decide

/-- CD-7, RL-9: an illegal word is reported before a bus error. -/
theorem test_illegal_before_bus_error :
    (tcResults [{ ports 0x2110 0 0 with busErrIn := true }]).map
      (·.map (fun o => (o.err, o.errInfo))) = some [(1, 0x21)] := by decide

/-- The drain of program P2: three records, the last with `more_out = 0`. -/
theorem test_drain_p2 :
    (tcRecords .ps [{ ports 0x8000 0xB3 0b01 with moreIn := true },
      { ports 0x8000 0x0C 0b01 with moreIn := true, lostIn := true },
      ports 0x8000 0x45 0b01, ports 0x8000 0x7F 0b01]).map
      (fun l => l.map (fun o => (o.relOut, o.rowOut, o.colOut, o.lostOut))) =
    some [(true, 3, 3, false), (false, 0, 12, true), (false, 4, 5, false)] := by decide

/-- A register command and a read of the other profile between two reads are no part of the drain. -/
theorem test_drain_interleaved :
    (tcRecords .ps [{ ports 0x8000 0xB3 0b01 with moreIn := true }, ports 0x4010 0x5A 0b01,
      { ports 0x9000 0x23 0b01 with countIn := 1 }, ports 0x8000 0x45 0b01]).map
      (fun l => l.map (·.rowOut)) = some [3, 4] := by decide

/-- The next step after reset runs the placed word (RL-1), and keeps what the host does after. -/
theorem test_withFetchWord :
    (match step (State.reset.withFetchWord 16 0x2010) with
      | .next t => (t.out.map (fun o => (o.regOut, o.nfOut)), t.pending)
      | .fault _ => (none, [])
      | .refused _ => (none, [])) = (some (1, 2), []) := by decide

/-! ## Witnesses: states and operands that meet the hypotheses of each obligation together -/

theorem tc_exec (k : Instr) (i : Inputs) : ∃ t o, exec k (tcState i) = .next t ∧ t.out = some o :=
  ⟨_, _, (exec_eq_settle k (tcState i)).trans (goOn_of_wf _ testConfig_wf), rfl⟩

theorem tc_step (i : Inputs) (rest : List HostEvent) :
    ∃ t o, step (tcPending (.command i :: rest)) = .next t ∧ t.out = some o :=
  ⟨_, _, step_command testConfig_wf rfl, rfl⟩

/-- Each key-event command's ports, its byte and count at values the vectors use. -/
def keyPorts (raw : Word) (count : Byte) (more lost : Bool) : Inputs :=
  { ports 0x8000 raw 0b01 with countIn := count, moreIn := more, lostIn := lost }

theorem tc_finds {i : Inputs} {p : Profile} {ctx : Ctx} {addr : Addr} {id : RegId} {L : Layout}
    (h : i.busErrIn = false)
    (he : ∃ e ∈ testConfig.addressMap.get p, e.addr = addr ∧ e.ctx = ctx ∧ e.reg = id)
    (hr : ∃ r ∈ testConfig.regTable, r.id = id ∧ r.layout = L) :
    Finds (tcState i) p ctx addr id L := ⟨testConfig_wf, h, he, hr⟩

theorem finds_kbdsize (i : Inputs) (h : i.busErrIn = false) :
    Finds (tcState i) .ps 0 0x10 1 kbdsizeLayout :=
  tc_finds h (by decide) (by decide)

theorem finds_paira (i : Inputs) (h : i.busErrIn = false) :
    Finds (tcState i) .pc 0 0x40 7 tcPairaLayout :=
  tc_finds h (by decide) (by decide)

theorem finds_evtcode (i : Inputs) (h : i.busErrIn = false) :
    Finds (tcState i) .ps 0 0x11 2 evtcodeLayout :=
  tc_finds h (by decide) (by decide)

theorem finds_irqst (i : Inputs) (h : i.busErrIn = false) :
    Finds (tcState i) .ps 0 0x12 3 tcIrqstLayout :=
  tc_finds h (by decide) (by decide)

theorem witness_EncodeOfDecodeIsTheWord : decode 0x3FFF = .error .reservedBits ∧
    decode 0x3CFF = .ok (.rlook .pc 3 0xFF) := by decide

theorem witness_StepRunsTheDecodedCommand :
    (tcPending [.command (ports 0x3CFF 0 0), .reset]).pending =
      .command (ports 0x3CFF 0 0) :: [.reset] ∧
    decode (ports 0x3CFF 0 0).cmd = .ok (.rlook .pc 3 0xFF) := by decide

theorem witness_IllegalWordRaisesIllegalCommand :
    cfgWf (tcPending [.command (ports 0xFFFF 0 0)]).cfg = true ∧
    (tcPending [.command (ports 0xFFFF 0 0)]).pending = .command (ports 0xFFFF 0 0) :: [] ∧
    decode (ports 0xFFFF 0 0).cmd = .error .reservedBits := by decide

theorem witness_ResetEventIdlesBothDecoders : cfgWf (tcPending [.reset]).cfg = true ∧
    (tcPending [.reset]).pending = .reset :: [] := by decide

theorem witness_NoFurtherCommandEndsTheRun :
    cfgWf (tcPending []).cfg = true ∧ (tcPending []).pending = [] := by decide

theorem witness_IllFormedBlockIsRefused :
    cfgWf (State.resetWith { testConfig with countW := 0 }).cfg = false := by decide

theorem witness_InvariantHoldsAfterReset : cfgWf testConfig = true := testConfig_wf

theorem witness_StepKeepsTheInvariant : ∃ t, Inv (tcPending [.command (ports 0x2010 0 0)]) ∧
    step (tcPending [.command (ports 0x2010 0 0)]) = .next t := by
  obtain ⟨t, -, h, -⟩ := tc_step (ports 0x2010 0 0) []
  exact ⟨t, ⟨testConfig_wf, by simp [tcPending]⟩, h⟩

theorem witness_EveryCommandCompletesInOneStep :
    cfgWf (tcPending [.command Inputs.zero]).cfg = true ∧
    (tcPending [.command Inputs.zero]).pending = .command Inputs.zero :: [] := by decide

theorem witness_ConfigurationIsNeverWritten :
    (∃ t, exec .kevS (tcState (keyPorts 0xB3 0 true false)) = .next t) ∧
    ∃ t, step (tcPending [.command (keyPorts 0xB3 0 true false)]) = .next t := by
  obtain ⟨t, -, h, -⟩ := tc_exec .kevS (keyPorts 0xB3 0 true false)
  obtain ⟨u, -, h', -⟩ := tc_step (keyPorts 0xB3 0 true false) []
  exact ⟨⟨t, h⟩, u, h'⟩

theorem witness_OnlyKeyEventsWriteTheirOwnDecoderState :
    (∃ t, exec .kevS (tcState (keyPorts 0xB3 0 true false)) = .next t ∧
      keyProfile .kevS ≠ some .pc) ∧
    (∃ t, step (tcPending [.command (ports 0x8001 0 0)]) = .next t ∧
      decode (ports 0x8001 0 0).cmd = .error .keyEventOperand) := by
  obtain ⟨t, -, h, -⟩ := tc_exec .kevS (keyPorts 0xB3 0 true false)
  obtain ⟨u, -, h', -⟩ := tc_step (ports 0x8001 0 0) []
  exact ⟨⟨t, h, by decide⟩, u, h', by decide⟩

theorem witness_CommandsDriveOnlyTheirOwnPorts :
    ∃ t, exec (.rdec .ps 0 0x10) (tcState (ports 0x4010 0x5A 0b01)) = .next t :=
  let ⟨t, _, h, _⟩ := tc_exec (.rdec .ps 0 0x10) (ports 0x4010 0x5A 0b01)
  ⟨t, h⟩

theorem witness_ResultsIgnoreTheDecoderState :
    ∃ t, exec .kevC (tcState (keyPorts 0x23 2 false false)) = .next t :=
  let ⟨t, _, h, _⟩ := tc_exec .kevC (keyPorts 0x23 2 false false)
  ⟨t, h⟩

theorem witness_RepeatedCommandChangesNothingMore :
    ∃ t, exec .kevS (tcState (keyPorts 0x0F 0 true false)) = .next t :=
  let ⟨t, _, h, _⟩ := tc_exec .kevS (keyPorts 0x0F 0 true false)
  ⟨t, h⟩

theorem witness_BusAddressesAreReadByNoCommand :
    ∃ t, exec (.renc .ps 0 0x10) (tcState (lanePorts 0x6010 [5, 10])) = .next t :=
  let ⟨t, _, h, _⟩ := tc_exec (.renc .ps 0 0x10) (lanePorts 0x6010 [5, 10])
  ⟨t, h⟩

/-- The largest address of the profile that does not shift. -/
theorem witness_BusAddressIsTheDatasheetAddressShiftedOnce :
    cfgWf { testConfig with busAddrDs := ⟨0xFF, 0x7F⟩ } = true := test_wf_refuses_wide_bus_address.2

theorem witness_AdmittedConfigurationsHoldTheSourcesRegisters : cfgWf testConfig = true :=
  testConfig_wf

/-- A run under TC answers a result for each of two commands. -/
theorem tc_run_two (s : State) (hs : s.cfg = testConfig) (a b : Inputs) :
    ∃ o₁ o₂ u, runCommands s [a, b] = .next ([o₁, o₂], u) := by
  have hw : cfgWf s.cfg = true := by rw [hs]; exact testConfig_wf
  exact ⟨_, _, _, runCommands_cons hw (runCommands_cons (s := afterCommand s a) hw (runCommands_nil hw))⟩

theorem witness_RegisterCommandsCommuteWithEveryCommand :
    decode (ports 0x2010 0 0).cmd = .ok (.rlook .ps 0 0x10) ∧
    keyProfile (.rlook .ps 0 0x10) = none ∧
    ∃ o₁ o₂ u, runCommands (State.resetWith testConfig)
      [ports 0x2010 0 0, keyPorts 0xB3 0 true false] = .next ([o₁, o₂], u) :=
  ⟨by decide, rfl, tc_run_two _ rfl _ _⟩

/-- The narrowest count that has a value of 2. -/
theorem witness_KeyEventsOfOneProfileDoNotCommute :
    cfgWf (State.resetWith { testConfig with countW := 2 }).cfg = true ∧
    2 ≤ (State.resetWith { testConfig with countW := 2 }).cfg.countW := by decide

theorem witness_RunYieldsOneResultPerCommand : cfgWf testConfig = true := testConfig_wf

theorem witness_ResultsDoNotDependOnHistory : ∃ o₁ o₂ u,
    runFromReset testConfig [keyPorts 0xB3 0 true false, ports 0x2010 0 0] = .next ([o₁, o₂], u) ∧
    [keyPorts 0xB3 0 true false, ports 0x2010 0 0][1]? = some (ports 0x2010 0 0) ∧
    [o₁, o₂][1]? = some o₂ := by
  obtain ⟨o₁, o₂, u, h⟩ := tc_run_two (State.resetWith testConfig) rfl
    (keyPorts 0xB3 0 true false) (ports 0x2010 0 0)
  exact ⟨o₁, o₂, u, h, rfl, rfl⟩

theorem witness_FinalDecoderStateIsTheLastVerdict : ∃ o₁ o₂ u,
    runFromReset testConfig [keyPorts 0xB3 0 true false, ports 0x8000 0 0] = .next ([o₁, o₂], u) :=
  tc_run_two _ rfl _ _

/-- A drain of one command, then a drain of two. -/
def twoDrains : List Inputs :=
  [keyPorts 0x7F 0 false false, keyPorts 0xB3 0 true false, keyPorts 0x7F 0 false false]

/-- A chaining key and the sentinel, after a command that the drain does not start with. -/
theorem witness_DrainHasOnlyRecordsBeforeItsLast :
    (∃ o₁ o₂ u, runFromReset testConfig [keyPorts 0xB3 0 true false, keyPorts 0x7F 0 false false] =
      .next ([o₁, o₂], u)) ∧
    (tcResults twoDrains).map (fun l =>
      ((drainOf .ps ((twoDrains.zip l).drop 0)).dropLast.length,
        (drainOf .ps ((twoDrains.zip l).drop 1)).dropLast.length)) = some (0, 1) :=
  ⟨tc_run_two _ rfl _ _, by decide⟩

theorem witness_BusErrorStopsEveryCommand :
    cfgWf (tcState { ports 0x8000 0xB3 0b01 with busErrIn := true }).cfg = true ∧
    (tcState { ports 0x8000 0xB3 0b01 with busErrIn := true }).inputs.busErrIn = true := by decide

/-- A miss at an address that has entries under other contexts (RL-4). -/
theorem witness_MapMissRaisesInvalidAddress :
    cfgWf (tcState (ports 0x2820 0 0)).cfg = true ∧
    (tcState (ports 0x2820 0 0)).inputs.busErrIn = false ∧
    ∀ e ∈ (tcState (ports 0x2820 0 0)).cfg.addressMap.get .ps, ¬ (e.addr = 0x20 ∧ e.ctx = 2) := by
  decide

theorem witness_WrongByteValidBitsRaiseLengthError :
    (Finds (tcState (ports 0x4010 0 0b11)) .ps 0 0x10 1 kbdsizeLayout ∧
      (tcState (ports 0x4010 0 0b11)).inputs.bvIn ≠ (if kbdsizeLayout.width = 8 then 0b01#2 else 0b11#2)) ∧
    (Finds (tcState (ports 0x5040 0 0b10)) .pc 0 0x40 7 tcPairaLayout ∧
      (tcState (ports 0x5040 0 0b10)).inputs.bvIn ≠ (if tcPairaLayout.width = 8 then 0b01#2 else 0b11#2)) ∧
    (cfgWf (tcState { ports 0x9000 0 0b00 with countIn := 1 }).cfg = true ∧
      (tcState { ports 0x9000 0 0b00 with countIn := 1 }).inputs.busErrIn = false ∧
      (tcState { ports 0x9000 0 0b00 with countIn := 1 }).inputs.bvIn ≠ 0b01 ∧
      (tcState { ports 0x9000 0 0b00 with countIn := 1 }).inputs.countIn.toNat %
        2 ^ testConfig.countW ≠ 0) :=
  ⟨⟨finds_kbdsize _ rfl, by decide⟩, ⟨finds_paira _ rfl, by decide⟩, testConfig_wf, by decide⟩

/-- Lane 1 is one above its field's mask, lane 0 at its mask (RE-7's shape). -/
theorem witness_LowestWideLaneRaisesFieldOverflow :
    Finds (tcState (lanePorts 0x6010 [15, 16])) .ps 0 0x10 1 kbdsizeLayout ∧
    (laneFields kbdsizeLayout)[1]? = some ⟨"COLSIZE", 0, 4, .num⟩ ∧
    2 ^ 4 ≤ (laneAt (tcState (lanePorts 0x6010 [15, 16])).inputs.fvIn 1).toNat ∧
    ∀ j < 1, ∀ g, (laneFields kbdsizeLayout)[j]? = some g →
      (laneAt (tcState (lanePorts 0x6010 [15, 16])).inputs.fvIn j).toNat < 2 ^ g.w := by
  refine ⟨finds_kbdsize _ rfl, by decide, by decide, ?_⟩
  intro j hj g hg
  obtain rfl : j = 0 := by omega
  cases hg
  decide

theorem witness_FirstErrorInOrderIsReported : ∃ t o,
    step (tcPending [.command (ports 0x4013 0 0)]) = .next t ∧ t.out = some o := tc_step _ _

theorem witness_ErrorsLeaveNoPartialResult : ∃ t o,
    exec (.renc .ps 0 0x10) (tcState (lanePorts 0x6010 [16, 0])) = .next t ∧ t.out = some o ∧
    o.err ≠ 0 :=
  ⟨_, _, (exec_eq_settle _ _).trans (goOn_of_wf _ testConfig_wf), rfl, by decide⟩

/-- The sentinel, an undefined code next to it (ROW 6), and an empty count with no byte supplied. -/
theorem witness_LossEmptyAndUndefinedCodeAreNoErrors :
    (cfgWf (tcState (keyPorts 0x7F 0 false true)).cfg = true ∧
      (keyPorts 0x7F 0 false true).busErrIn = false ∧ (keyPorts 0x7F 0 false true).bvIn = 0b01 ∧
      (keyPorts 0x7F 0 false true).rawIn.toNat % 256 = 0x7F) ∧
    ((keyPorts 0x6F 0 false true).bvIn = 0b01 ∧ (keyPorts 0x6F 0 false true).rawIn.toNat % 16 = 15 ∧
      (keyPorts 0x6F 0 false true).rawIn.toNat / 16 % 8 ≠ 7) ∧
    (ports 0x9000 0 0b00).busErrIn = false ∧
      (ports 0x9000 0 0b00).countIn.toNat % 2 ^ testConfig.countW = 0 := by decide

theorem witness_AssemblyAndFieldsAsNumbers :
    tcPairaLayout.width ≠ 8 ∧ kbdsizeLayout.width = 8 ∧ (0 : Nat) + 16 ≤ 16 ∧ 15 + 1 ≤ 16 := by decide

theorem witness_RlookAnswersTheRegister :
    cfgWf (tcState (ports 0x3040 0 0)).cfg = true ∧ (tcState (ports 0x3040 0 0)).inputs.busErrIn = false ∧
    (⟨0x40, 0, 7⟩ : MapEntry) ∈ (tcState (ports 0x3040 0 0)).cfg.addressMap.get .pc ∧
    (⟨7, "PAIRA", tcPairaLayout⟩ : RegEntry) ∈ (tcState (ports 0x3040 0 0)).cfg.regTable :=
  ⟨testConfig_wf, rfl, by decide, by decide⟩

theorem witness_RdecDecodesEveryField :
    (Finds (tcState (ports 0x4010 0x5A 0b01)) .ps 0 0x10 1 kbdsizeLayout ∧
      (tcState (ports 0x4010 0x5A 0b01)).inputs.bvIn = 0b01) ∧
    Finds (tcState (ports 0x5040 0xCDAB 0b11)) .pc 0 0x40 7 tcPairaLayout ∧
      (tcState (ports 0x5040 0xCDAB 0b11)).inputs.bvIn = 0b11 :=
  ⟨⟨finds_kbdsize _ rfl, rfl⟩, finds_paira _ rfl, rfl⟩

/-- RD-8 and RD-10: 0x46 and 0x7F differ only in IRQST's reserved bits. -/
theorem witness_ReservedBitsDoNotReachTheDecodedView :
    mapEntry testConfig .ps 0 0x12 = some 3 ∧ layoutOf testConfig 3 = some tcIrqstLayout ∧
    (∀ f ∈ tcIrqstLayout.fields, f.kind ≠ .rsv → ∀ b < 16, f.off ≤ b → b < f.off + f.w →
      (assemble testConfig .ps tcIrqstLayout 0x46).getLsbD b =
        (assemble testConfig .ps tcIrqstLayout 0x7F).getLsbD b) ∧
    ∃ t, exec (.rdec .ps 0 0x12) (tcState (ports 0x4012 0x46 0b01)) = .next t :=
  ⟨by decide, by decide, by decide,
    let ⟨t, _, h, _⟩ := tc_exec (.rdec .ps 0 0x12) (ports 0x4012 0x46 0b01); ⟨t, h⟩⟩

theorem witness_RdecOfTheEventCodeIsAPlainView :
    Finds (tcState (ports 0x4011 0x7F 0b01)) .ps 0 0x11 2 evtcodeLayout ∧
    (tcState (ports 0x4011 0x7F 0b01)).inputs.bvIn = 0b01 := ⟨finds_evtcode _ rfl, rfl⟩

theorem witness_RawZeroDecodesToZero :
    Finds (tcState (ports 0x4012 0 0b01)) .ps 0 0x12 3 tcIrqstLayout ∧
    (tcState (ports 0x4012 0 0b01)).inputs.bvIn = 0b01 ∧
    (tcState (ports 0x4012 0 0b01)).inputs.rawIn = 0 := ⟨finds_irqst _ rfl, rfl, rfl⟩

/-- Both lanes at their fields' masks. -/
theorem witness_RencEncodesEveryField :
    Finds (tcState (lanePorts 0x6010 [15, 15])) .ps 0 0x10 1 kbdsizeLayout ∧
    LanesFit kbdsizeLayout (tcState (lanePorts 0x6010 [15, 15])).inputs.fvIn := by
  refine ⟨finds_kbdsize _ rfl, ?_⟩
  intro k f hf
  have hk : k < 2 := (List.getElem?_eq_some_iff.mp hf).1
  interval_cases k <;> cases hf <;> decide

theorem witness_ReservedBitsAreEncodedAsZero : ∃ t o,
    Finds (tcState (lanePorts 0x6012 [1, 1, 1, 1])) .ps 0 0x12 3 tcIrqstLayout ∧
    exec (.renc .ps 0 0x12) (tcState (lanePorts 0x6012 [1, 1, 1, 1])) = .next t ∧
    t.out = some o ∧ o.err = 0 :=
  ⟨_, _, finds_irqst _ rfl, (exec_eq_settle _ _).trans (goOn_of_wf _ testConfig_wf), rfl, by decide⟩

/-- RE-5: a value in a lane beyond the fields. -/
theorem witness_LanesBeyondTheFieldsAreNotRead :
    Finds (tcState (lanePorts 0x6010 [5, 10])) .ps 0 0x10 1 kbdsizeLayout ∧
    (∀ k < (laneFields kbdsizeLayout).length, laneAt (lanesOf [5, 10, 99]) k =
      laneAt (tcState (lanePorts 0x6010 [5, 10])).inputs.fvIn k) ∧
    ∃ t, exec (.renc .ps 0 0x10) (tcState (lanePorts 0x6010 [5, 10])) = .next t :=
  ⟨finds_kbdsize _ rfl, by decide,
    let ⟨t, _, h, _⟩ := tc_exec (.renc .ps 0 0x10) (lanePorts 0x6010 [5, 10]); ⟨t, h⟩⟩

/-- A half pair, a whole pair and a byte. -/
theorem witness_RegistersMoveWholeOrNotAtAll :
    Finds (tcState (ports 0x5040 0xAB 0b01)) .pc 0 0x40 7 tcPairaLayout ∧
    Finds (tcState (ports 0x5040 0xCDAB 0b11)) .pc 0 0x40 7 tcPairaLayout ∧
    Finds (tcState (ports 0x4010 0x5A 0b01)) .ps 0 0x10 1 kbdsizeLayout :=
  ⟨finds_paira _ rfl, finds_paira _ rfl, finds_kbdsize _ rfl⟩

/-- RE-13: a pair whose reserved nibble is 0. -/
theorem witness_EncodeOfDecodeGivesTheRawValue : ∃ t o,
    Finds (tcState (ports 0x5040 0xC0AB 0b11)) .pc 0 0x40 7 tcPairaLayout ∧
    (∀ f ∈ tcPairaLayout.fields, f.kind = .rsv →
      fieldOf (assemble testConfig .pc tcPairaLayout 0xC0AB) f = 0) ∧
    exec (.rdec .pc 0 0x40) (tcState (ports 0x5040 0xC0AB 0b11)) = .next t ∧
    t.out = some o ∧ o.err = 0 :=
  ⟨_, _, finds_paira _ rfl, by decide, (exec_eq_settle _ _).trans (goOn_of_wf _ testConfig_wf), rfl,
    by decide⟩

theorem witness_DecodeOfEncodeGivesTheLanes :
    Finds (tcState (lanePorts 0x7040 [0xF, 0xFF])) .pc 0 0x40 7 tcPairaLayout ∧
    LanesFit tcPairaLayout (tcState (lanePorts 0x7040 [0xF, 0xFF])).inputs.fvIn := by
  refine ⟨finds_paira _ rfl, ?_⟩
  intro k f hf
  have hk : k < 2 := (List.getElem?_eq_some_iff.mp hf).1
  interval_cases k <;> cases hf <;> decide

theorem witness_KevSOnTheSentinelAnswersEmpty :
    cfgWf (tcState (keyPorts 0x7F 0 true true)).cfg = true ∧
    (keyPorts 0x7F 0 true true).busErrIn = false ∧ (keyPorts 0x7F 0 true true).bvIn = 0b01 ∧
    (keyPorts 0x7F 0 true true).rawIn.toNat % 128 = 0x7F := by decide

/-- The last matrix column, the first and the last tagged one. -/
theorem witness_KevSOnAKeyAnswersItsFieldsAndRole :
    cfgWf (tcState (keyPorts 0x7E 0 true false)).cfg = true ∧
    (keyPorts 0x7E 0 true false).busErrIn = false ∧ (keyPorts 0x7E 0 true false).bvIn = 0b01 ∧
    (keyPorts 0x7E 0 true false).rawIn.toNat % 16 ≠ 15 ∧
    (keyPorts 0x0B 0 true false).rawIn.toNat % 16 ≠ 15 ∧
    (keyPorts 0x0C 0 true false).rawIn.toNat % 16 ≠ 15 := by decide

/-- COLUMN 15 with the rows next to the sentinel's and lowest. -/
theorem witness_KevSOnAnUndefinedCodeAnswersInvalid :
    cfgWf (tcState (keyPorts 0xEF 0 false false)).cfg = true ∧
    (keyPorts 0xEF 0 false false).busErrIn = false ∧ (keyPorts 0xEF 0 false false).bvIn = 0b01 ∧
    (keyPorts 0xEF 0 false false).rawIn.toNat % 16 = 15 ∧
    (keyPorts 0xEF 0 false false).rawIn.toNat / 16 % 8 ≠ 7 ∧
    (keyPorts 0x0F 0 false false).rawIn.toNat % 16 = 15 ∧
    (keyPorts 0x0F 0 false false).rawIn.toNat / 16 % 8 ≠ 7 := by decide

theorem witness_KevCWithCountZeroAnswersEmpty :
    cfgWf (tcState (keyPorts 0x23 32 false false)).cfg = true ∧
    (keyPorts 0x23 32 false false).busErrIn = false ∧
    (keyPorts 0x23 32 false false).countIn.toNat % 2 ^ testConfig.countW = 0 := by decide

/-- Counts 1 (the last event) and 31 (the largest of five bits). -/
theorem witness_KevCWithACountAnswersAKey :
    cfgWf (tcState (keyPorts 0x7F 31 false false)).cfg = true ∧
    (keyPorts 0x7F 31 false false).busErrIn = false ∧ (keyPorts 0x7F 31 false false).bvIn = 0b01 ∧
    (keyPorts 0x7F 31 false false).countIn.toNat % 2 ^ testConfig.countW = 31 ∧
    (keyPorts 0x7F 1 false false).countIn.toNat % 2 ^ testConfig.countW = 1 := by decide

theorem witness_KindNoneOnlyOnErrorsAndOtherCommands : ∃ t o,
    exec .kevS (tcState (keyPorts 0x0F 0 false true)) = .next t ∧ t.out = some o ∧
    o.kindOut ≠ 0 :=
  ⟨_, _, (exec_eq_settle _ _).trans (goOn_of_wf _ testConfig_wf), rfl, by decide⟩

/-- A chaining key, and a failed read. -/
theorem witness_NextDecoderStateFollowsMoreOut : keyProfile .kevS = some .ps ∧
    (∃ t o, exec .kevS (tcState (keyPorts 0xB3 0 true false)) = .next t ∧ t.out = some o ∧
      o.err = 0) ∧
    (∃ t o, exec .kevS (tcState (keyPorts 0x7F 0 true false)) = .next t ∧ t.out = some o ∧
      o.kindOut = 2) ∧
    ∃ t o, exec .kevS (tcState (ports 0x8000 0xB3 0b00)) = .next t ∧ t.out = some o ∧ o.err ≠ 0 :=
  ⟨rfl,
    ⟨_, _, (exec_eq_settle _ _).trans (goOn_of_wf _ testConfig_wf), rfl, by decide⟩,
    ⟨_, _, (exec_eq_settle _ _).trans (goOn_of_wf _ testConfig_wf), rfl, by decide⟩,
    ⟨_, _, (exec_eq_settle _ _).trans (goOn_of_wf _ testConfig_wf), rfl, by decide⟩⟩

theorem witness_LostSignalChangesLostOutAlone : ∃ t o,
    exec .kevC (tcState (keyPorts 0x23 2 false true)) = .next t ∧ t.out = some o ∧ o.kindOut ≠ 0 :=
  ⟨_, _, (exec_eq_settle _ _).trans (goOn_of_wf _ testConfig_wf), rfl, by decide⟩

theorem witness_CountBitsAboveItsWidthAreIgnored :
    (∃ t, exec .kevC (tcState (keyPorts 0x23 1 false false)) = .next t) ∧
    (33 : Byte).toNat % 2 ^ testConfig.countW = (1 : Byte).toNat % 2 ^ testConfig.countW :=
  ⟨let ⟨t, _, h, _⟩ := tc_exec .kevC (keyPorts 0x23 1 false false); ⟨t, h⟩, by decide⟩

theorem witness_AssembledOperandsStandInTheWord : (Asm.rdec .pc (.pair 3 255)).wf = true ∧
    (Asm.rdec .pc (.pair 4 255)).wf = false ∧ (Asm.rdec .pc (.pair 3 256)).wf = false := by decide

/-- PAIRB at one pair; a status register at two addresses of one context, and of two contexts. -/
theorem witness_RegisterNamesAssembleToTheirPlace :
    (cfgWf testConfig = true ∧ (⟨0x42, 0, 8⟩ : MapEntry) ∈ testConfig.addressMap.get .pc ∧
      (⟨8, "PAIRB", flatLayout 16⟩ : RegEntry) ∈ testConfig.regTable ∧
      ∀ e' ∈ testConfig.addressMap.get .pc, e'.reg = 8 → e' = ⟨0x42, 0, 8⟩) ∧
    (cfgWf (withPcEntry ⟨0x52, 0, 9⟩) = true ∧
      ∃ e' ∈ (withPcEntry ⟨0x52, 0, 9⟩).addressMap.get .pc, e'.reg = 9 ∧ e'.ctx = 0 ∧
        e' ≠ ⟨0x50, 0, 9⟩) ∧
    (cfgWf (withPcEntry ⟨0x52, 1, 9⟩) = true ∧
      (∀ e' ∈ (withPcEntry ⟨0x52, 1, 9⟩).addressMap.get .pc, e'.reg = 9 → e'.ctx = 0 →
        e' = ⟨0x50, 0, 9⟩) ∧
      ∃ e' ∈ (withPcEntry ⟨0x52, 1, 9⟩).addressMap.get .pc, e'.reg = 9 ∧ e' ≠ ⟨0x50, 0, 9⟩) :=
  ⟨⟨testConfig_wf, by decide, by decide, by decide⟩, ⟨test_wf_refuses_one_name_twice.2.2, by decide⟩,
    by decide⟩

end Sys2Proof.Tests
end

section
/-! PROOFS. What a command and a step leave unchanged in the state of the block (10_state.md R11 and
R24). -/

namespace Sys2Proof.Machine

/-- R11: a command's next state is its reply settled on the state, which keeps the configuration. -/
theorem exec_next_cfg {i : Instr} {s t : State} (h : exec i s = .next t) : t.cfg = s.cfg := by
  rw [exec_eq_settle] at h
  obtain ⟨-, rfl⟩ := goOn_eq_next h
  exact settle_cfg _ _

/-- R11: neither the reset event nor a command, legal or not, writes the configuration. -/
theorem step_next_cfg {s t : State} (h : step s = .next t) : t.cfg = s.cfg := by
  obtain ⟨rest, -, -, rfl⟩ | ⟨i, rest, -, ⟨k, -, hk⟩ | ⟨w, -, -, rfl⟩⟩ := step_eq_next h
  · rw [resetBlock_cfg]
  · rw [exec_next_cfg hk, sample_cfg]
  · rw [raiseError_cfg, sample_cfg]

/-- R24: a command leaves the decoder state of every profile other than its own. -/
theorem exec_next_kfd_get {i : Instr} {s t : State} {p : Profile} (h : exec i s = .next t)
    (hp : keyProfile i ≠ some p) : t.kfd.get p = s.kfd.get p := by
  obtain ⟨-, ⟨e, rfl⟩ | ⟨-, o, rfl⟩ | ⟨q, o, k, hq, -, rfl⟩⟩ := exec_eq_next h
  · rw [raiseError_kfd]
  · rw [complete_kfd]
  · have hne : p ≠ q := fun hpq => hp (hpq ▸ hq)
    rw [complete_kfd, PerProfile.get_set_of_ne _ _ hne]

/-- R24, R87: a step on an illegal word raises an error, which leaves both decoder states. -/
theorem step_next_kfd_of_illegal {s t : State} {i : Inputs} {rest : List HostEvent} {e : IllegalWord}
    (hp : s.pending = .command i :: rest) (hd : decode i.cmd = .error e) (h : step s = .next t) :
    t.kfd = s.kfd := by
  rw [step_command (wf_of_step h) hp] at h
  cases h
  simp [replyTo, hd, kfdAfter]

/-- Settles O14: a command by `exec_next_cfg`, an event by the cases of a step. -/
theorem configurationIsNeverWritten : Obligations.ConfigurationIsNeverWritten :=
  ⟨fun _ _ _ h => exec_next_cfg h, fun _ _ h => step_next_cfg h⟩

/-- Settles O15: a legal command by the next states of `exec_eq_next`, an illegal word by its reply. -/
theorem onlyKeyEventsWriteTheirOwnDecoderState :
    Obligations.OnlyKeyEventsWriteTheirOwnDecoderState :=
  ⟨fun _ _ _ _ h hp => exec_next_kfd_get h hp,
    fun _ _ _ _ _ hp hd h => step_next_kfd_of_illegal hp hd h⟩

end Sys2Proof.Machine
end

section
/-! PROOFS. The byte lanes of a register value and its fields as numbers (20_memory.md R34,
40_register_decoder.md R56). -/

namespace Sys2Proof.Machine

theorem lowLane_toNat (v : Word) : (lowLane v).toNat = v.toNat % 256 := by
  simp [lowLane]

theorem highLane_toNat (v : Word) : (highLane v).toNat = v.toNat / 256 := by
  have hv : v.toNat / 256 < 256 := by omega
  rw [highLane, BitVec.extractLsb'_toNat, Nat.shiftRight_eq_div_pow, Nat.mod_eq_of_lt hv]

theorem bytes_toNat (hi lo : Byte) : (hi ++ lo : Word).toNat = hi.toNat * 256 + lo.toNat := by
  rw [BitVec.toNat_append, Nat.shiftLeft_eq, Nat.mul_comm, ← Nat.two_pow_add_eq_or_of_lt lo.isLt,
    Nat.mul_comm]

/-- R34: the value of a pair with the byte at A high. -/
theorem joinPair_lowAddrHigh_toNat (raw : Word) :
    (joinPair .lowAddrHigh raw).toNat = raw.toNat % 256 * 256 + raw.toNat / 256 := by
  simp only [joinPair, bytes_toNat, lowLane_toNat, highLane_toNat]

/-- R34: the raw lanes hold a pair with the byte at A low as its value. -/
theorem joinPair_lowAddrLow (raw : Word) : joinPair .lowAddrLow raw = raw :=
  highLane_append_lowLane raw

/-- R56: the value is the byte at A, zero-extended, or the pair joined. -/
theorem assemble_toNat (c : Cfg) (p : Profile) (L : Layout) (raw : Word) :
    (assemble c p L raw).toNat =
      if L.width = 8 then raw.toNat % 256 else (joinPair (c.pairOrder.get p) raw).toNat := by
  by_cases hw : L.width = 8
  · rw [assemble, if_pos hw, if_pos hw, BitVec.toNat_setWidth_of_le (by decide), lowLane_toNat]
  · rw [assemble, if_neg hw, if_neg hw]

/-- R56: the shift is a quotient, and the mask of a field's width a remainder. -/
theorem fieldOf_toNat (v : Word) {f : Field} (h : f.w ≤ 16) :
    (fieldOf v f).toNat = v.toNat / 2 ^ f.off % 2 ^ f.w := by
  rw [fieldOf, BitVec.toNat_and, BitVec.toNat_ushiftRight, mask_toNat h,
    Nat.and_two_pow_sub_one_eq_mod, Nat.shiftRight_eq_div_pow]

/-- Settles O33: the value by the two orders of a pair, the inverse by the rules of `assemble` and
`disassemble`, a field by `fieldOf_toNat`. -/
theorem assemblyAndFieldsAsNumbers : Obligations.AssemblyAndFieldsAsNumbers := by
  refine ⟨fun c p L raw => ?_, fun c p L v hw => ⟨?_, ?_⟩, fun v f hf => ?_⟩
  · rw [assemble_toNat]
    cases c.pairOrder.get p with
    | lowAddrHigh => rw [joinPair_lowAddrHigh_toNat]
    | lowAddrLow => rw [joinPair_lowAddrLow]
  · exact assemble_disassemble c p L (fun h => absurd h hw)
  · rw [disassemble_assemble, if_neg hw]
  · exact fieldOf_toNat v (by omega)

end Sys2Proof.Machine
end

section
/-! PROOFS. How a command raises an error (60_exceptions.md R87), and the map miss and the lane too wide
for its field (R90, R92). -/

namespace Sys2Proof.Machine

/-- R87: a command that replies an error leaves no trace of it but its code and information. -/
theorem exec_of_reply_error {i : Instr} {s : State} {e : CmdError} (hw : cfgWf s.cfg = true)
    (h : reply s.cfg s.inputs i = .error e) : exec i s = .next (afterError s e.code e.info) := by
  rw [exec_eq_settle, h]
  exact goOn_of_wf _ hw

/-- R15: the map answers nothing for a key that none of its entries has. -/
theorem mapEntry_eq_none_iff {c : Cfg} {p : Profile} {ctx : Ctx} {addr : Addr} :
    mapEntry c p ctx addr = none ↔
      ∀ e ∈ c.addressMap.get p, ¬ (e.addr = addr ∧ e.ctx = ctx) := by
  simp [mapEntry]

section LookupError

variable {c : Cfg} {i : Inputs} {p : Profile} {ctx : Ctx} {addr : Addr} {e : CmdError}

theorem rlook_of_lookup_error (hb : i.busErrIn = false) (hl : lookup c p ctx addr = .error e) :
    rlook c i p ctx addr = .error e := by
  simp [rlook, hb, hl]

theorem rdec_of_lookup_error (hb : i.busErrIn = false) (hl : lookup c p ctx addr = .error e) :
    rdec c i p ctx addr = .error e := by
  simp [rdec, hb, hl]

theorem renc_of_lookup_error (hb : i.busErrIn = false) (hl : lookup c p ctx addr = .error e) :
    renc c i p ctx addr = .error e := by
  simp [renc, hb, hl]

/-- R64: `RENC` passes on the error of its field loop. -/
theorem renc_of_packFields_error {id : RegId} {L : Layout} (hb : i.busErrIn = false)
    (hl : lookup c p ctx addr = .ok (id, L)) (hp : packFields i.fvIn L.fields 0 0 = .error e) :
    renc c i p ctx addr = .error e := by
  simp only [renc, hb, hl, hp, Bool.false_eq_true, if_false]

end LookupError

/-- R92: over a layout's fields from lane 0, the field loop reports the lowest lane too wide. -/
theorem packFields_of_lowestWideLane {L : Layout} {fv : Lanes} {k : Nat} {v : Word} {f : Field}
    (hL : Tiled L) (hk : (laneFields L)[k]? = some f) (hwide : 2 ^ f.w ≤ (laneAt fv k).toNat)
    (hlower : ∀ j < k, ∀ g, (laneFields L)[j]? = some g → (laneAt fv j).toNat < 2 ^ g.w) :
    packFields fv L.fields 0 v = .error (.fieldOverflow k) := by
  have fits : ∀ g ∈ L.fields, g.w ≤ 16 := fun g hg => by
    have := hL.fits_sixteen g hg
    omega
  have h := packFields_overflow (fv := fv) (k := 0) (v := v) fits hk (by rwa [Nat.zero_add])
    (fun j hj g hg => by rw [Nat.zero_add]; exact hlower j hj g hg)
  rwa [Nat.zero_add] at h

/-- Settles O27: the lookup misses, and each register command passes its error on. -/
theorem mapMissRaisesInvalidAddress : Obligations.MapMissRaisesInvalidAddress := by
  intro s p ctx addr hw hb hmiss
  have hl : lookup s.cfg p ctx addr = .error (.invalidAddress addr) :=
    lookup_of_miss (mapEntry_eq_none_iff.mpr hmiss)
  have raises {i : Instr} (h : reply s.cfg s.inputs i = .error (.invalidAddress addr)) :
      exec i s = .next (afterError s 3 addr) := exec_of_reply_error hw h
  refine ⟨raises ?_, raises ?_, raises ?_⟩
  · rw [reply, rlook_of_lookup_error hb hl]; rfl
  · rw [reply, rdec_of_lookup_error hb hl]; rfl
  · rw [reply, renc_of_lookup_error hb hl]; rfl

/-- Settles O29: the field loop reports the lowest lane too wide for its field, and `RENC` passes its
error on. -/
theorem lowestWideLaneRaisesFieldOverflow : Obligations.LowestWideLaneRaisesFieldOverflow := by
  intro s p ctx addr id L k f hfinds hk hwide hlower
  have ⟨hw, hb, _⟩ := hfinds
  have hpack : packFields s.inputs.fvIn L.fields 0 0 = .error (.fieldOverflow k) :=
    packFields_of_lowestWideLane (tiled_of_finds hfinds) hk hwide hlower
  refine exec_of_reply_error (e := .fieldOverflow k) hw ?_
  rw [reply, renc_of_packFields_error hb (lookup_of_finds hfinds) hpack]
  rfl

end Sys2Proof.Machine
end

section
/-! PROOFS. The outcomes of the key-event commands that are no errors (60_exceptions.md R93). -/

namespace Sys2Proof.Machine

/-- R75: the sentinel as a number. -/
theorem isSentinel_iff (e : Byte) : isSentinel e = true ↔ e.toNat % 128 = 127 := by
  simp [isSentinel, ← BitVec.toNat_inj]

/-- R19: COLUMN 15 as a number. -/
theorem colS_eq_fifteen_iff (e : Byte) : colS e = 15#4 ↔ e.toNat % 16 = 15 := by
  simp [colS, ← BitVec.toNat_inj]

/-- R74: with its byte supplied, `KEV.S` completes; the sentinel is `EMPTY`, and COLUMN 15 beside any
other ROW is `INVALID`. -/
theorem exists_kevS_ok (c : Cfg) {i : Inputs} (hb : i.busErrIn = false) (hv : i.bvIn = 0b01) :
    ∃ o k, kevS c i = .ok (o, k) ∧
      (isSentinel (lowLane i.rawIn) = true → o.kindOut = KeyKind.empty.code) ∧
      (isSentinel (lowLane i.rawIn) = false → colS (lowLane i.rawIn) = 15#4 →
        o.kindOut = KeyKind.invalid.code) := by
  rw [kevS, if_neg (by simp [hb]), if_neg (not_not.mpr hv)]
  by_cases hs : isSentinel (lowLane i.rawIn) = true
  · exact ⟨_, _, if_pos hs, fun _ => rfl, fun hs' => absurd hs (by simp [hs'])⟩
  · by_cases hc : colS (lowLane i.rawIn) = 15#4
    · exact ⟨_, _, (if_neg hs).trans (if_pos hc), fun h => absurd h hs, fun _ _ => rfl⟩
    · exact ⟨_, _, (if_neg hs).trans (if_neg hc), fun h => absurd h hs, fun _ h => absurd h hc⟩

/-- R80: with an empty queue, or its byte supplied, `KEV.C` completes; the empty queue is `EMPTY`. -/
theorem exists_kevC_ok (c : Cfg) {i : Inputs} (hb : i.busErrIn = false)
    (h : eventCount c i.countIn = 0 ∨ i.bvIn = 0b01) :
    ∃ o k, kevC c i = .ok (o, k) ∧
      (eventCount c i.countIn = 0 → o.kindOut = KeyKind.empty.code) := by
  rw [kevC, if_neg (by simp [hb])]
  by_cases hn : eventCount c i.countIn = 0
  · exact ⟨_, _, if_pos hn, fun _ => rfl⟩
  · have hv : ¬ i.bvIn ≠ 0b01 := not_not.mpr (h.resolve_left hn)
    exact ⟨_, _, (if_neg hn).trans (if_neg hv), fun h' => absurd h' hn⟩

/-- R93: a key-event command that completes reports `OK`, hands on the loss signal, and keeps its
outcome on the ports. -/
theorem exists_next_of_keyOutcome {s : State} {p : Profile} {o : Outputs} {k : KfdState}
    (hw : cfgWf s.cfg = true) (ho : KeyOutcome s.inputs o k) :
    ∃ t o', finishKey s p (.ok (o, k)) = .next t ∧ t.out = some o' ∧ o'.err = 0 ∧ o'.errInfo = 0 ∧
      o'.lostOut = s.inputs.lostIn ∧ o'.kindOut = o.kindOut := by
  refine ⟨_, _, finishKey_ok p hw o k, complete_out _ _ _, ?_, ?_, ho.lost, rfl⟩
  · exact congrArg Outputs.err ho.ports
  · exact congrArg Outputs.errInfo ho.ports

/-- Settles O32: both commands complete by `exists_kevS_ok` and `exists_kevC_ok`, and a command that
completes reports `OK`. -/
theorem lossEmptyAndUndefinedCodeAreNoErrors :
    Obligations.LossEmptyAndUndefinedCodeAreNoErrors := by
  refine ⟨fun s hw hb hv => ?_, fun s hw hb hn => ?_⟩
  · obtain ⟨o, k, hok, hempty, hinvalid⟩ := exists_kevS_ok s.cfg hb hv
    obtain ⟨t, o', ht, hout, herr, hinfo, hlost, hkind⟩ :=
      exists_next_of_keyOutcome (p := .ps) hw (kevS_eq_ok hok).2
    refine ⟨t, o', ?_, hout, herr, hinfo, hlost, fun hraw => ?_, fun ⟨hcol, hrow⟩ => ?_⟩
    · rw [exec, execKevS, hok, ht]
    · rw [hkind]
      refine hempty ((isSentinel_iff _).mpr ?_)
      rw [lowLane_toNat]
      omega
    · rw [hkind]
      refine hinvalid (Bool.eq_false_iff.mpr fun hs => ?_) ((colS_eq_fifteen_iff _).mpr ?_)
      · rw [isSentinel_iff, lowLane_toNat] at hs
        omega
      · rw [lowLane_toNat]
        omega
  · obtain ⟨o, k, hok, hempty⟩ := exists_kevC_ok s.cfg hb hn
    obtain ⟨t, o', ht, hout, herr, hinfo, hlost, hkind⟩ :=
      exists_next_of_keyOutcome (p := .pc) hw (kevC_eq_ok hok).2
    exact ⟨t, o', by rw [exec, execKevC, hok, ht], hout, herr, hinfo, hlost,
      fun h => hkind.trans (hempty h)⟩

end Sys2Proof.Machine
end

section
/-! PROOFS. The command word: the encoder and the decoder are inverse to each other on the words
outside the illegal space (30_encoding.md R46 to R54). -/

namespace Sys2Proof

/-- R48: the decoder reads back each field of a packed word, so it finds the command. -/
theorem decode_encode (i : Instr) : decode (encode i) = .ok i := by
  cases i with
  | kevS => rfl
  | kevC => rfl
  | _ =>
    simp [encode, decode, rsvField_packWord, opField_packWord, profileField_packWord,
      ctxField_packWord, addrField_packWord]

section Fields

variable (w : Word)

theorem opField_toNat : (opField w).toNat = w.toNat / 8192 := by
  have hw : w.toNat / 8192 < 8 := by omega
  exact (toNat_field w 13 3).trans (Nat.mod_eq_of_lt hw)

theorem ctxField_toNat : (ctxField w).toNat = w.toNat / 1024 % 4 := toNat_field w 10 2

theorem rsvField_toNat : (rsvField w).toNat = w.toNat / 256 % 4 := toNat_field w 8 2

theorem addrField_toNat : (addrField w).toNat = w.toNat % 256 := by
  simp [addrField]

theorem profileField_bit_toNat : (profileField w).bit.toNat = w.toNat / 4096 % 2 := by
  rw [profileField, Profile.bit_ofBit, ← BitVec.testBit_toNat, Nat.toNat_testBit]

/-- R46: the five fields are the whole word. -/
theorem packWord_fields (hr : rsvField w = 0) :
    packWord (opField w) (profileField w) (ctxField w) (addrField w) = w := by
  have h0 : w.toNat / 256 % 4 = 0 := by rw [← rsvField_toNat, hr]; rfl
  apply BitVec.eq_of_toNat_eq
  rw [packWord_toNat, opField_toNat, profileField_bit_toNat, ctxField_toNat, addrField_toNat]
  omega

end Fields

/-- R47: the command of a word is packed from the word's own fields. -/
theorem encode_of_decode {w : Word} {i : Instr} (h : decode w = .ok i) : encode i = w := by
  obtain ⟨hr, ⟨hop, rfl⟩ | ⟨hop, rfl⟩ | ⟨hop, rfl⟩ | ⟨hop, hc, ha, ⟨hp, rfl⟩ | ⟨hp, rfl⟩⟩⟩ :=
    decode_ok_cases h
  all_goals
    have hw := packWord_fields w hr
  · rwa [hop] at hw
  · rwa [hop] at hw
  · rwa [hop] at hw
  · rwa [hop, hp, hc, ha] at hw
  · rwa [hop, hp, hc, ha] at hw

/-- R52 on the fields: a word outside the illegal space is the word of a command. -/
theorem exists_encode_eq {w : Word} (hr : rsvField w = 0)
    (hop : opField w = 1 ∨ opField w = 2 ∨ opField w = 3 ∨
      opField w = 4 ∧ ctxField w = 0 ∧ addrField w = 0) : ∃ i, encode i = w := by
  have hw := packWord_fields w hr
  rcases hop with h | h | h | ⟨h, hc, ha⟩
  · exact ⟨.rlook (profileField w) (ctxField w) (addrField w), by rwa [h] at hw⟩
  · exact ⟨.rdec (profileField w) (ctxField w) (addrField w), by rwa [h] at hw⟩
  · exact ⟨.renc (profileField w) (ctxField w) (addrField w), by rwa [h] at hw⟩
  · rw [h, hc, ha] at hw
    cases hp : profileField w with
    | ps => exact ⟨.kevS, by rwa [hp] at hw⟩
    | pc => exact ⟨.kevC, by rwa [hp] at hw⟩

/-- R48, R52: the decoder accepts exactly the words outside the illegal space. -/
theorem decode_ok_iff (w : Word) : (∃ i, decode w = .ok i) ↔ rsvField w = 0 ∧
    (opField w = 1 ∨ opField w = 2 ∨ opField w = 3 ∨
      opField w = 4 ∧ ctxField w = 0 ∧ addrField w = 0) := by
  constructor
  · rintro ⟨i, hi⟩
    obtain ⟨hr, ⟨hop, -⟩ | ⟨hop, -⟩ | ⟨hop, -⟩ | ⟨hop, hc, ha, -⟩⟩ := decode_ok_cases hi
    exacts [⟨hr, .inl hop⟩, ⟨hr, .inr (.inl hop)⟩, ⟨hr, .inr (.inr (.inl hop))⟩,
      ⟨hr, .inr (.inr (.inr ⟨hop, hc, ha⟩))⟩]
  · rintro ⟨hr, hop⟩
    obtain ⟨i, rfl⟩ := exists_encode_eq hr hop
    exact ⟨i, decode_encode i⟩

theorem decode_error_iff (w : Word) : (∃ e, decode w = .error e) ↔ ¬ ∃ i, decode w = .ok i := by
  cases decode w <;> simp

/-- Settles O1: each command by the fields of its packed word. -/
theorem decodeOfEncodeIsTheCommand : Obligations.DecodeOfEncodeIsTheCommand := decode_encode

/-- Settles O2: the fields of an accepted word are packed to the word again. -/
theorem encodeOfDecodeIsTheWord : Obligations.EncodeOfDecodeIsTheWord :=
  fun _ _ h => encode_of_decode h

/-- Settles O3: the words the decoder accepts, with their fields as numbers. -/
theorem illegalSpaceIsExactlyRejected : Obligations.IllegalSpaceIsExactlyRejected := by
  intro w
  rw [decode_error_iff, decode_ok_iff]
  simp only [← BitVec.toNat_inj, opField_toNat, ctxField_toNat, rsvField_toNat, addrField_toNat,
    BitVec.ofNat_eq_ofNat, BitVec.toNat_ofNat]
  omega

/-- Settles O4: the decoder runs on each word. -/
theorem workedEncodingsDecode : Obligations.WorkedEncodingsDecode := by
  unfold Obligations.WorkedEncodingsDecode
  decide

end Sys2Proof
end

section
/-! PROOFS. Every command ends as its reply (10_state.md R25, 60_exceptions.md R87): what a reply
can be, and that each reply is lawful on the ports (10_state.md R28). -/

namespace Sys2Proof.Machine

/-- A command of a well-formed block is its reply, settled on the state. -/
theorem exec_of_wf {s : State} (i : Instr) (hw : cfgWf s.cfg = true) :
    exec i s = .next (settle s (reply s.cfg s.inputs i)) := by
  rw [exec_eq_settle, goOn_of_wf _ hw]

theorem exec_eq_next_iff {i : Instr} {s t : State} :
    exec i s = .next t ↔ cfgWf s.cfg = true ∧ t = settle s (reply s.cfg s.inputs i) :=
  ⟨fun h => goOn_eq_next ((exec_eq_settle i s).symm.trans h), fun ⟨hw, ht⟩ => ht ▸ exec_of_wf i hw⟩

/-- R87: settling an error is raising it. -/
theorem settle_error (s : State) (e : CmdError) :
    settle s (.error e) = afterError s e.code e.info := rfl

section ReplyCases

variable {c : Cfg} {i : Inputs} {p : Profile} {ctx : Ctx} {addr : Addr} {o : Outputs}
  {m : Option (Profile × KfdState)} {k : Instr}

/-- `RLOOK` replies the header of its register (R57). -/
theorem reply_rlook_eq_ok (h : reply c i (.rlook p ctx addr) = .ok (o, m)) :
    m = none ∧ ∃ id L, lookup c p ctx addr = .ok (id, L) ∧ o = regHeader id L := by
  cases hr : rlook c i p ctx addr with
  | error e => rw [reply, hr] at h; cases h
  | ok o' => rw [reply, hr] at h; cases h; exact ⟨rfl, (rlook_eq_ok hr).2⟩

/-- `RDEC` replies the fields and states of its register (R58). -/
theorem reply_rdec_eq_ok (h : reply c i (.rdec p ctx addr) = .ok (o, m)) :
    m = none ∧ ∃ id L, lookup c p ctx addr = .ok (id, L) ∧ i.bvIn = byteMask L ∧
      o = { regHeader id L with
        fvOut := lanesOf ((laneFields L).map (fieldOf (assemble c p L i.rawIn)))
        esOut := lanesOf ((laneFields L).map
          (fun f => stateOf f (fieldOf (assemble c p L i.rawIn) f))) } := by
  cases hr : rdec c i p ctx addr with
  | error e => rw [reply, hr] at h; cases h
  | ok o' => rw [reply, hr] at h; cases h; exact ⟨rfl, (rdec_eq_ok hr).2⟩

/-- `RENC` replies the bytes of the packed lanes (R64). -/
theorem reply_renc_eq_ok (h : reply c i (.renc p ctx addr) = .ok (o, m)) :
    m = none ∧ ∃ id L v, lookup c p ctx addr = .ok (id, L) ∧
      packFields i.fvIn L.fields 0 0 = .ok v ∧
      o = { regHeader id L with rawOut := disassemble c p L v, bvOut := byteMask L } := by
  cases hr : renc c i p ctx addr with
  | error e => rw [reply, hr] at h; cases h
  | ok o' => rw [reply, hr] at h; cases h; exact ⟨rfl, (renc_eq_ok hr).2⟩

/-- A key-event command replies a key-event outcome for its own profile (R71, R72). -/
theorem reply_kevS_eq_ok (h : reply c i .kevS = .ok (o, m)) :
    ∃ k', m = some (.ps, k') ∧ KeyOutcome i o k' := by
  cases hr : kevS c i with
  | error e => rw [reply, hr] at h; cases h
  | ok q => rw [reply, hr] at h; cases h; exact ⟨q.2, rfl, (kevS_eq_ok hr).2⟩

theorem reply_kevC_eq_ok (h : reply c i .kevC = .ok (o, m)) :
    ∃ k', m = some (.pc, k') ∧ KeyOutcome i o k' := by
  cases hr : kevC c i with
  | error e => rw [reply, hr] at h; cases h
  | ok q => rw [reply, hr] at h; cases h; exact ⟨q.2, rfl, (kevC_eq_ok hr).2⟩

/-- A reply that is no error: a register command's drives register ports only and writes no decoder
state, a key-event command's is an outcome of its own profile (R24, R50). -/
theorem reply_eq_ok (h : reply c i k = .ok (o, m)) :
    (keyProfile k = none ∧ m = none ∧ o = { Outputs.zero with
      regOut := o.regOut, wOut := o.wOut, nfOut := o.nfOut, rawOut := o.rawOut, bvOut := o.bvOut,
      fvOut := o.fvOut, esOut := o.esOut }) ∨
    ∃ p k', keyProfile k = some p ∧ m = some (p, k') ∧ KeyOutcome i o k' := by
  cases k with
  | rlook p ctx addr =>
    obtain ⟨hm, id, L, -, rfl⟩ := reply_rlook_eq_ok h
    exact .inl ⟨rfl, hm, rfl⟩
  | rdec p ctx addr =>
    obtain ⟨hm, id, L, -, -, rfl⟩ := reply_rdec_eq_ok h
    exact .inl ⟨rfl, hm, rfl⟩
  | renc p ctx addr =>
    obtain ⟨hm, id, L, v, -, -, rfl⟩ := reply_renc_eq_ok h
    exact .inl ⟨rfl, hm, rfl⟩
  | kevS =>
    obtain ⟨k', hm, ho⟩ := reply_kevS_eq_ok h
    exact .inr ⟨.ps, k', rfl, hm, ho⟩
  | kevC =>
    obtain ⟨k', hm, ho⟩ := reply_kevC_eq_ok h
    exact .inr ⟨.pc, k', rfl, hm, ho⟩

theorem KeyOutcome.err {k' : KfdState} (h : KeyOutcome i o k') : o.err = 0 ∧ o.errInfo = 0 :=
  ⟨congrArg Outputs.err h.ports, congrArg Outputs.errInfo h.ports⟩

/-- R86: a reply that is no error reports `OK`. -/
theorem err_of_reply_eq_ok (h : reply c i k = .ok (o, m)) : o.err = 0 ∧ o.errInfo = 0 := by
  obtain ⟨-, -, ho⟩ | ⟨p, k', -, -, ho⟩ := reply_eq_ok h
  · exact ⟨congrArg Outputs.err ho, congrArg Outputs.errInfo ho⟩
  · exact ho.err

end ReplyCases

/-! ### Lawful results (R28, R59, R86, R87) -/

theorem resultLawful_error (e : CmdError) (kst : BitVec 2) :
    ResultLawful { Outputs.zero with err := e.code, errInfo := e.info, kstOut := kst } := by
  refine ⟨⟨e.code_le, fun h => absurd h e.code_ne_zero⟩, fun _ => rfl, ?_, ?_, ?_⟩
  · simp [RegisterPortsLawful, Outputs.zero]
  · simp [LanesLawful, Outputs.zero]
  · simp [KeyPortsLawful, Outputs.zero]

/-- A register command's result is lawful if its bytes match the byte-valid bits and the lanes from
`nf_out` on are 0. -/
theorem resultLawful_register {L : Layout} {raw : Word} {bv : BitVec 2} {fv es : Lanes}
    (hL : Tiled L) (id : RegId) (kst : BitVec 2)
    (hraw : bv = 0 ∧ raw = 0 ∨ bv = 1 ∧ highLane raw = 0 ∨ bv = 3)
    (hlanes : ∀ k, (laneFields L).length ≤ k → laneAt fv k = 0 ∧ laneAt es k = 0) :
    ResultLawful { regHeader id L with
      rawOut := raw, bvOut := bv, fvOut := fv, esOut := es, kstOut := kst } := by
  refine ⟨⟨Nat.zero_le 5, fun _ => rfl⟩, fun h => absurd rfl h, ⟨?_, ?_, hraw⟩,
    fun k hk _ => ?_, ?_⟩
  · change widthBytes L ≠ 3
    rw [hL.widthBytes_eq]
    split <;> decide
  · exact hL.fieldCount_toNat.trans_le hL.laneFields_le_sixteen
  · exact hlanes k (hL.fieldCount_toNat ▸ hk)
  · simp [KeyPortsLawful, regHeader, Outputs.zero]

theorem resultLawful_key {i : Inputs} {o : Outputs} {k : KfdState} (h : KeyOutcome i o k)
    (kst : BitVec 2) : ResultLawful { o with kstOut := kst } := by
  obtain ⟨herr, hinfo⟩ := h.err
  refine ⟨?_, fun hne => absurd herr hne, ?_, ?_, ?_⟩
  · simp [ErrLawful, herr, hinfo]
  · rw [h.ports]
    simp [RegisterPortsLawful, Outputs.zero]
  · rw [h.ports]
    simp [LanesLawful, Outputs.zero]
  · obtain ⟨hk, hr⟩ | ⟨hk, hr⟩ | ⟨hk, hr, hrow, hcol, hrel, hmore⟩ := h.kind
    · simpa [KeyPortsLawful, hk, KeyKind.code] using hr
    · simp [KeyPortsLawful, hk, hr, KeyKind.code]
    · simp [KeyPortsLawful, hk, hr, hrow, hcol, hrel, hmore]

/-- The lanes of a register's fields end with the last field (R59). -/
theorem laneAt_map_of_le {L : Layout} (hL : Tiled L) (g : Field → Word) {k : Nat}
    (hk : (laneFields L).length ≤ k) : laneAt (lanesOf ((laneFields L).map g)) k = 0 := by
  rw [laneAt_map hL, List.getElem?_eq_none hk]
  rfl

/-- The register a lookup of a well-formed configuration answers is tiled (R17). -/
theorem tiled_of_lookup {c : Cfg} {p : Profile} {ctx : Ctx} {addr : Addr} {id : RegId} {L : Layout}
    (hw : cfgWf c = true) (h : lookup c p ctx addr = .ok (id, L)) : Tiled L := by
  obtain ⟨-, hmiss⟩ | ⟨id', L', -, -, hL, hfound⟩ := lookup_cases p ctx addr hw
  · rw [hmiss] at h; cases h
  · rw [hfound] at h; cases h; exact hL

/-- R37: an encoded register's bytes match its byte-valid bits. -/
theorem encoded_bytes_match (c : Cfg) (p : Profile) (L : Layout) (v : Word) :
    byteMask L = 1 ∧ highLane (disassemble c p L v) = 0 ∨ byteMask L = 3 := by
  by_cases h : L.width = 8
  · exact .inl ⟨if_pos h, by rw [disassemble, if_pos h, highLane_setWidth]⟩
  · exact .inr (if_neg h)

/-- Every reply of a well-formed configuration is lawful, whatever `kst_out` shows beside it. -/
theorem resultLawful_reply {c : Cfg} (hw : cfgWf c = true) (i : Inputs) (k : Instr)
    (kst : BitVec 2) : ResultLawful { portsOf (reply c i k) with kstOut := kst } := by
  cases hr : reply c i k with
  | error e => exact resultLawful_error e kst
  | ok q =>
    obtain ⟨o, m⟩ := q
    change ResultLawful { o with kstOut := kst }
    cases k with
    | rlook p ctx addr =>
      obtain ⟨-, id, L, hl, rfl⟩ := reply_rlook_eq_ok hr
      exact resultLawful_register (tiled_of_lookup hw hl) id kst (.inl ⟨rfl, rfl⟩)
        (fun k _ => ⟨laneAt_zero k, laneAt_zero k⟩)
    | rdec p ctx addr =>
      obtain ⟨-, id, L, hl, -, rfl⟩ := reply_rdec_eq_ok hr
      have hL := tiled_of_lookup hw hl
      exact resultLawful_register hL id kst (.inl ⟨rfl, rfl⟩)
        (fun k hk => ⟨laneAt_map_of_le hL _ hk, laneAt_map_of_le hL _ hk⟩)
    | renc p ctx addr =>
      obtain ⟨-, id, L, v, hl, -, rfl⟩ := reply_renc_eq_ok hr
      exact resultLawful_register (tiled_of_lookup hw hl) id kst
        (.inr (encoded_bytes_match c p L v))
        (fun k _ => ⟨laneAt_zero k, laneAt_zero k⟩)
    | kevS =>
      obtain ⟨k', -, ho⟩ := reply_kevS_eq_ok hr
      exact resultLawful_key ho kst
    | kevC =>
      obtain ⟨k', -, ho⟩ := reply_kevC_eq_ok hr
      exact resultLawful_key ho kst

theorem resultLawful_replyTo {c : Cfg} (hw : cfgWf c = true) (i : Inputs) (kst : BitVec 2) :
    ResultLawful { portsOf (replyTo c i) with kstOut := kst } := by
  cases hd : decode i.cmd with
  | ok k => rw [replyTo, hd]; exact resultLawful_reply hw i k kst
  | error e => rw [replyTo, hd]; exact resultLawful_error _ kst

/-- R100: the reset event keeps the configuration and leaves no result. -/
theorem inv_resetBlock {s : State} (hw : cfgWf s.cfg = true) : Inv (resetBlock s) :=
  ⟨hw, fun _ ho => by cases ho⟩

/-- A state that a reply is settled on meets the invariant when the reply is lawful. -/
theorem inv_settle {s : State} (hw : cfgWf s.cfg = true) (i : Inputs) :
    Inv (settle s (replyTo s.cfg i)) := by
  refine ⟨hw, fun o ho => ?_⟩
  rw [settle_out, Option.some.injEq] at ho
  subst ho
  exact ⟨resultLawful_replyTo hw i _, showsStates_kstOf _ _⟩

/-- A step of a well-formed block is the reset event or the reply to a command, legal or not. -/
theorem step_eq_next_cases {s t : State} (h : step s = .next t) :
    (∃ rest, s.pending = .reset :: rest ∧ t = resetBlock { s with pending := rest }) ∨
    ∃ i rest, s.pending = .command i :: rest ∧
      t = settle (sample s i rest) (replyTo s.cfg i) := by
  obtain ⟨rest, hp, -, ht⟩ | ⟨i, rest, hp, -⟩ := step_eq_next h
  · exact .inl ⟨rest, hp, ht⟩
  · rw [step_command (wf_of_step h) hp] at h
    cases h
    exact .inr ⟨i, rest, hp, rfl⟩

/-- Settles O12: the reset event leaves no result, and every reply is lawful. -/
theorem stepKeepsTheInvariant : Obligations.StepKeepsTheInvariant := by
  rintro s t ⟨hw, -⟩ h
  obtain ⟨rest, -, rfl⟩ | ⟨i, rest, -, rfl⟩ := step_eq_next_cases h
  · exact inv_resetBlock hw
  · exact inv_settle (s := sample s i rest) hw i

/-- Settles O11: after reset there is no result. -/
theorem invariantHoldsAfterReset : Obligations.InvariantHoldsAfterReset :=
  fun _ hw => ⟨hw, fun _ ho => by cases ho⟩

end Sys2Proof.Machine
end

section
/-! PROOFS. The register commands on a register they find (40_register_decoder.md R57, R58,
41_register_encoder.md R64): what each answers, and the value the encoder packs. -/

namespace Sys2Proof.Machine

/-- What `RDEC` shows of the register value `v` (R58). -/
def decodedView (id : RegId) (L : Layout) (v : Word) : Outputs :=
  { regHeader id L with
    fvOut := lanesOf ((laneFields L).map (fieldOf v))
    esOut := lanesOf ((laneFields L).map (fun f => stateOf f (fieldOf v f))) }

/-- What `RENC` shows of the packed value `v` (R64). -/
def encodedView (c : Cfg) (p : Profile) (id : RegId) (L : Layout) (v : Word) : Outputs :=
  { regHeader id L with rawOut := disassemble c p L v, bvOut := byteMask L }

section Lookup

variable {c : Cfg} {p : Profile} {ctx : Ctx} {addr : Addr} {id : RegId} {L : Layout}

/-- The reply to `RLOOK` where the map has its register (R57). -/
theorem reply_rlook_of_lookup (i : Inputs) (hl : lookup c p ctx addr = .ok (id, L)) :
    reply c i (.rlook p ctx addr) =
      if i.busErrIn then .error .busError else .ok (regHeader id L, none) := by
  simp only [reply, rlook, hl]
  split <;> rfl

/-- The reply to `RDEC` where the map has its register (R58). -/
theorem reply_rdec_of_lookup (i : Inputs) (hl : lookup c p ctx addr = .ok (id, L)) :
    reply c i (.rdec p ctx addr) =
      if i.busErrIn then .error .busError
      else if i.bvIn ≠ byteMask L then .error (.lengthError i.bvIn)
      else .ok (decodedView id L (assemble c p L i.rawIn), none) := by
  simp only [reply, rdec, hl]
  split
  · rfl
  · split <;> rfl

/-- The reply to `RENC` where the map has its register (R64). -/
theorem reply_renc_of_lookup (i : Inputs) (hl : lookup c p ctx addr = .ok (id, L)) :
    reply c i (.renc p ctx addr) =
      if i.busErrIn then .error .busError
      else (packFields i.fvIn L.fields 0 0).map (fun v => (encodedView c p id L v, none)) := by
  simp only [reply, renc, hl]
  split
  · rfl
  · cases packFields i.fvIn L.fields 0 0 <;> rfl

end Lookup

section Found

variable {s t : State} {p : Profile} {ctx : Ctx} {addr : Addr} {id : RegId} {L : Layout}
  {o : Outputs} {v : Word} {e : CmdError}

theorem not_busErr_of_finds (hf : Finds s p ctx addr id L) : ¬ s.inputs.busErrIn = true :=
  Bool.eq_false_iff.mp hf.2.1

theorem exec_rlook_of_finds (hf : Finds s p ctx addr id L) :
    exec (.rlook p ctx addr) s = .next (complete s (regHeader id L) s.kfd) := by
  rw [exec_of_wf _ hf.1, reply_rlook_of_lookup _ (lookup_of_finds hf),
    if_neg (not_busErr_of_finds hf)]
  rfl

theorem exec_rdec_of_finds (hf : Finds s p ctx addr id L) (hv : s.inputs.bvIn = byteMask L) :
    exec (.rdec p ctx addr) s =
      .next (complete s (decodedView id L (assemble s.cfg p L s.inputs.rawIn)) s.kfd) := by
  rw [exec_of_wf _ hf.1, reply_rdec_of_lookup _ (lookup_of_finds hf),
    if_neg (not_busErr_of_finds hf), if_neg (not_not.mpr hv)]
  rfl

/-- R91: `RDEC` refuses byte-valid bits that are not its register's. -/
theorem exec_rdec_of_wrong_length (hf : Finds s p ctx addr id L) (hv : s.inputs.bvIn ≠ byteMask L) :
    exec (.rdec p ctx addr) s = .next (raiseError s (.lengthError s.inputs.bvIn)) := by
  rw [exec_of_wf _ hf.1, reply_rdec_of_lookup _ (lookup_of_finds hf),
    if_neg (not_busErr_of_finds hf), if_pos hv]
  rfl

theorem exec_renc_of_finds (hf : Finds s p ctx addr id L)
    (hv : packFields s.inputs.fvIn L.fields 0 0 = .ok v) :
    exec (.renc p ctx addr) s = .next (complete s (encodedView s.cfg p id L v) s.kfd) := by
  rw [exec_of_wf _ hf.1, reply_renc_of_lookup _ (lookup_of_finds hf),
    if_neg (not_busErr_of_finds hf), hv]
  rfl

theorem exec_renc_of_packFields_error (hf : Finds s p ctx addr id L)
    (hv : packFields s.inputs.fvIn L.fields 0 0 = .error e) :
    exec (.renc p ctx addr) s = .next (raiseError s e) := by
  rw [exec_of_wf _ hf.1, reply_renc_of_lookup _ (lookup_of_finds hf),
    if_neg (not_busErr_of_finds hf), hv]
  rfl

/-- A state that raised an error shows its code. -/
theorem err_of_raiseError (ho : (raiseError s e).out = some o) : o.err ≠ 0 := by
  rw [raiseError_out, Option.some.injEq] at ho
  subst ho
  exact e.code_ne_zero

/-- An `RDEC` without an error had its register's byte-valid bits, and shows its fields. -/
theorem rdec_completes (hf : Finds s p ctx addr id L) (h : exec (.rdec p ctx addr) s = .next t)
    (ho : t.out = some o) (herr : o.err = 0) : s.inputs.bvIn = byteMask L ∧
      t = complete s (decodedView id L (assemble s.cfg p L s.inputs.rawIn)) s.kfd := by
  by_cases hv : s.inputs.bvIn = byteMask L
  · rw [exec_rdec_of_finds hf hv] at h
    cases h
    exact ⟨hv, rfl⟩
  · rw [exec_rdec_of_wrong_length hf hv] at h
    cases h
    exact absurd herr (err_of_raiseError ho)

/-- An `RENC` without an error shows the bytes of the packed lanes. -/
theorem renc_completes (hf : Finds s p ctx addr id L) (h : exec (.renc p ctx addr) s = .next t)
    (ho : t.out = some o) (herr : o.err = 0) :
    ∃ v, packFields s.inputs.fvIn L.fields 0 0 = .ok v ∧
      t = complete s (encodedView s.cfg p id L v) s.kfd := by
  cases hv : packFields s.inputs.fvIn L.fields 0 0 with
  | ok v =>
    rw [exec_renc_of_finds hf hv] at h
    cases h
    exact ⟨v, rfl, rfl⟩
  | error e =>
    rw [exec_renc_of_packFields_error hf hv] at h
    cases h
    exact absurd herr (err_of_raiseError ho)

end Found

/-! ### The value the encoder packs (R64, R65) -/

/-- `v` holds each lane of `fv` in its field and 0 in every other bit. -/
structure Packed (L : Layout) (fv : Lanes) (v : Word) : Prop where
  lanes : ∀ k f, (laneFields L)[k]? = some f → fieldOf v f = laneAt fv k
  fit : LanesFit L fv
  reserved : ∀ f ∈ L.fields, isRsv f = true → fieldOf v f = 0
  above : ∀ b, L.width ≤ b → v.getLsbD b = false

variable {L : Layout} {fv : Lanes} {v : Word}

theorem packed_of_packFields (hL : Tiled L) (h : packFields fv L.fields 0 0 = .ok v) :
    Packed L fv v := by
  obtain ⟨outside, lanes, reserved⟩ :=
    packFields_ok hL.fits_sixteen hL.stacked (fun _ _ _ _ _ => BitVec.getLsbD_zero) h
  refine ⟨fun k f hk => ?_, fun k f hk => ?_, reserved, fun b hb => ?_⟩
  · simpa using (lanes k f hk).1
  · simpa using (lanes k f hk).2
  · by_cases hb16 : b < 16
    · rw [outside b hb16 (fun f hf hin => ?_), BitVec.getLsbD_zero]
      have := hL.fits f hf
      omega
    · exact BitVec.getLsbD_of_ge _ _ (Nat.le_of_not_lt hb16)

/-- R64: lanes that fit are packed. -/
theorem exists_packed (hL : Tiled L) (hfit : LanesFit L fv) :
    ∃ v, packFields fv L.fields 0 0 = .ok v ∧ Packed L fv v := by
  have fits : ∀ f ∈ L.fields, f.w ≤ 16 := fun f hf => by
    have := hL.fits_sixteen f hf
    omega
  obtain ⟨v, hv⟩ := packFields_of_fits (k := 0) (v := 0) fits (fun j f hj => by
    rw [Nat.zero_add]
    exact hfit j f hj)
  exact ⟨v, hv, packed_of_packFields hL hv⟩

/-- A field is reserved, or has a lane (R13). -/
theorem mem_laneFields {f : Field} (hf : f ∈ L.fields) (hr : isRsv f = false) :
    ∃ k : Nat, (laneFields L)[k]? = some f :=
  List.mem_iff_getElem?.mp (List.mem_filter.mpr ⟨hf, by simp [hr]⟩)

theorem mem_fields_of_lane {k : Nat} {f : Field} (hk : (laneFields L)[k]? = some f) :
    f ∈ L.fields ∧ isRsv f = false := by
  obtain ⟨hf, hr⟩ := List.mem_filter.mp (List.mem_of_getElem? hk)
  exact ⟨hf, by simpa using hr⟩

/-- R17 (b): the fields cover a register, so values that agree in them are one value. -/
theorem eq_of_fieldOf_eq {v v' : Word} (hL : Tiled L)
    (fields : ∀ f ∈ L.fields, fieldOf v f = fieldOf v' f)
    (above : ∀ b, L.width ≤ b → v.getLsbD b = v'.getLsbD b) : v = v' := by
  apply BitVec.eq_of_getLsbD_eq
  intro b _
  by_cases hb : b < L.width
  · obtain ⟨f, hf, hlo, hhi⟩ := hL.covers b hb
    have hbit : (fieldOf v f).getLsbD (b - f.off) = (fieldOf v' f).getLsbD (b - f.off) := by
      rw [fields f hf]
    have hin : b - f.off < f.w := by omega
    simpa [getLsbD_fieldOf, hin, Nat.add_sub_cancel' hlo] using hbit
  · exact above b (Nat.le_of_not_lt hb)

/-- An 8-bit register's packed value is one byte (R37). -/
theorem Packed.highLane_eq_zero (h : Packed L fv v) (hw : L.width = 8) : highLane v = 0 := by
  apply BitVec.eq_of_getLsbD_eq
  intro b _
  rw [getLsbD_highLane, h.above (8 + b) (by omega), Bool.and_false]
  exact BitVec.getLsbD_zero.symm

/-- R64, R56: the bytes of a packed value assemble to it again. -/
theorem Packed.assemble_disassemble (h : Packed L fv v) (c : Cfg) (p : Profile) :
    assemble c p L (disassemble c p L v) = v :=
  Machine.assemble_disassemble c p L h.highLane_eq_zero

/-- R37: the bytes of an 8-bit register leave the high lane 0. -/
theorem disassemble_toNat_lt (c : Cfg) (p : Profile) (v : Word) (hw : L.width = 8) :
    (disassemble c p L v).toNat < 256 := by
  rw [disassemble, if_pos hw, BitVec.toNat_setWidth_of_le (by decide)]
  exact (lowLane v).isLt

/-- R56: a register's value has no bit beyond its width. -/
theorem getLsbD_assemble_of_le (hL : Tiled L) (c : Cfg) (p : Profile) (raw : Word) {b : Nat}
    (hb : L.width ≤ b) : (assemble c p L raw).getLsbD b = false := by
  rcases hL.width with hw | hw
  · rw [assemble, if_pos hw, BitVec.getLsbD_setWidth, BitVec.getLsbD_of_ge _ _ (hw ▸ hb),
      Bool.and_false]
  · exact BitVec.getLsbD_of_ge _ _ (hw ▸ hb)

/-- R58: lane `k` of the decoded fields. -/
theorem laneAt_decodedView (hL : Tiled L) (id : RegId) (v : Word) {k : Nat} {f : Field}
    (hk : (laneFields L)[k]? = some f) : laneAt (decodedView id L v).fvOut k = fieldOf v f := by
  rw [decodedView, laneAt_map hL, hk]
  rfl

theorem laneAt_decodedView_of_le (hL : Tiled L) (id : RegId) (v : Word) {k : Nat}
    (hk : (laneFields L).length ≤ k) : laneAt (decodedView id L v).fvOut k = 0 ∧
      laneAt (decodedView id L v).esOut k = 0 :=
  ⟨laneAt_map_of_le hL _ hk, laneAt_map_of_le hL _ hk⟩

/-- R69: a value whose reserved bits are 0 is what its own decoded lanes pack to. -/
theorem packFields_decodedView (hL : Tiled L) (id : RegId)
    (reserved : ∀ f ∈ L.fields, isRsv f = true → fieldOf v f = 0)
    (above : ∀ b, L.width ≤ b → v.getLsbD b = false) :
    packFields (decodedView id L v).fvOut L.fields 0 0 = .ok v := by
  have hfit : LanesFit L (decodedView id L v).fvOut := fun k f hk => by
    have := hL.fits_sixteen f (mem_fields_of_lane hk).1
    rw [laneAt_decodedView hL id v hk]
    exact fieldOf_lt (by omega)
  obtain ⟨u, hu, hp⟩ := exists_packed hL hfit
  have huv : u = v := by
    refine eq_of_fieldOf_eq hL (fun f hf => ?_)
      (fun b hb => (hp.above b hb).trans (above b hb).symm)
    cases hr : isRsv f with
    | true => rw [hp.reserved f hf hr, reserved f hf hr]
    | false =>
      obtain ⟨k, hk⟩ := mem_laneFields hf hr
      rw [hp.lanes k f hk, laneAt_decodedView hL id v hk]
  rw [hu, huv]

theorem isRsv_iff {f : Field} : isRsv f = true ↔ f.kind = .rsv := decide_eq_true_iff

/-- Settles O43: the decoded lanes pack to the value, whose bytes are the raw lanes. -/
theorem encodeOfDecodeGivesTheRawValue : Obligations.EncodeOfDecodeGivesTheRawValue := by
  intro s t p ctx addr id L o hf hrsv h ho herr
  have hL := tiled_of_finds hf
  obtain ⟨hv, rfl⟩ := rdec_completes hf h ho herr
  rw [complete_out, Option.some.injEq] at ho
  subst ho
  have hpack := packFields_decodedView hL id (fun f hfm hr => hrsv f hfm (isRsv_iff.mp hr))
    (fun b => getLsbD_assemble_of_le hL s.cfg p s.inputs.rawIn)
  refine ⟨_, _, exec_renc_of_finds hf hpack, complete_out _ _ _, rfl, hv.symm, ?_⟩
  change (disassemble s.cfg p L (assemble s.cfg p L s.inputs.rawIn)).toNat = _
  rw [disassemble_assemble]
  split
  · rw [BitVec.toNat_setWidth_of_le (by decide), lowLane_toNat]
  · rfl

/-- Settles O44: the packed value holds the lanes, and its bytes assemble to it again. -/
theorem decodeOfEncodeGivesTheLanes : Obligations.DecodeOfEncodeGivesTheLanes := by
  intro s p ctx addr id L hf hfit
  have hL := tiled_of_finds hf
  obtain ⟨v, hv, hp⟩ := exists_packed hL hfit
  refine ⟨_, _, _, _, exec_renc_of_finds hf hv, complete_out _ _ _, rfl,
    exec_rdec_of_finds hf rfl, complete_out _ _ _, rfl, fun k hk => ?_, fun k hk => ?_⟩
  · obtain ⟨f, hkf⟩ : ∃ f, (laneFields L)[k]? = some f := ⟨_, List.getElem?_eq_getElem hk⟩
    change laneAt (decodedView id L (assemble s.cfg p L (disassemble s.cfg p L v))).fvOut k = _
    rw [hp.assemble_disassemble, laneAt_decodedView hL id v hkf, hp.lanes k f hkf]
  · exact (laneAt_decodedView_of_le hL id _ hk).1

end Sys2Proof.Machine
end

section
/-! PROOFS. What the register commands answer, port by port (40_register_decoder.md R57 to R63,
41_register_encoder.md R64 to R68), and what they do not read. -/

namespace Sys2Proof.Machine

/-- The header of a register, as the rules write it (R57). -/
theorem regHeader_eq {L : Layout} (hL : Tiled L) (id : RegId) :
    regHeader id L = { Outputs.zero with
      regOut := id
      wOut := if L.width = 8 then 1 else 2
      nfOut := BitVec.ofNat 5 (L.fields.filter (fun f => !isRsv f)).length } := by
  rw [regHeader, hL.widthBytes_eq]
  rfl

/-- On other inputs with the same reply, a command gives the same result and decoder states. -/
theorem exec_next_of_reply_eq {i : Instr} {s t : State} {j : Inputs} (h : exec i s = .next t)
    (hr : reply s.cfg j i = reply s.cfg s.inputs i) :
    ∃ u, exec i { s with inputs := j } = .next u ∧ u.out = t.out ∧ u.kfd = t.kfd := by
  obtain ⟨hw, rfl⟩ := exec_eq_next_iff.mp h
  refine ⟨_, exec_of_wf i hw, ?_, ?_⟩
  · rw [settle_out, settle_out, hr]
  · rw [settle_kfd, settle_kfd, hr]

/-- R60: a defined code's state is its map's entry. -/
theorem stateOf_enum {f : Field} {map : List Word} {x : Word} (hk : f.kind = .enum map)
    (ht : enumTotal f = true) (hx : x.toNat < 2 ^ f.w) : map[x.toNat]? = some (stateOf f x) := by
  have hlen : map.length = 2 ^ f.w := by simpa [enumTotal, hk] using ht
  have hlt : x.toNat < map.length := hlen ▸ hx
  simp only [stateOf, hk, List.getElem?_eq_getElem hlt, List.getD_eq_getElem _ _ hlt]

theorem stateOf_num {f : Field} (hk : f.kind = .num) (x : Word) : stateOf f x = 0 := by
  rw [stateOf, hk]

/-- R60: lane `k` of the decoded states. -/
theorem laneAt_decodedView_es {L : Layout} (hL : Tiled L) (id : RegId) (v : Word) {k : Nat}
    {f : Field} (hk : (laneFields L)[k]? = some f) :
    laneAt (decodedView id L v).esOut k = stateOf f (fieldOf v f) := by
  rw [decodedView, laneAt_map hL, hk]
  rfl

/-- R61: `RDEC` reads only the bits of the non-reserved fields. -/
theorem decodedView_congr {L : Layout} {v v' : Word} (id : RegId)
    (h : ∀ f ∈ L.fields, f.kind ≠ .rsv → ∀ b, f.off ≤ b → b < f.off + f.w →
      v.getLsbD b = v'.getLsbD b) : decodedView id L v = decodedView id L v' := by
  have hfield : ∀ f ∈ laneFields L, fieldOf v f = fieldOf v' f := fun f hf => by
    obtain ⟨hm, hr⟩ := List.mem_filter.mp hf
    exact fieldOf_congr (h f hm (by simpa [isRsv] using hr))
  rw [decodedView, decodedView, List.map_congr_left hfield,
    List.map_congr_left (fun f hf => congrArg (stateOf f) (hfield f hf))]

theorem assemble_zero (c : Cfg) (p : Profile) (L : Layout) : assemble c p L 0 = 0 := by
  rw [assemble]
  split
  · rfl
  · cases c.pairOrder.get p <;> rfl

/-- An entry of the map with its row of the table is what the register commands find. -/
theorem finds_of_mem {s : State} {p : Profile} {e : MapEntry} {r : RegEntry}
    (hw : cfgWf s.cfg = true) (hb : s.inputs.busErrIn = false) (he : e ∈ s.cfg.addressMap.get p)
    (hr : r ∈ s.cfg.regTable) (hid : r.id = e.reg) : Finds s p e.ctx e.addr e.reg r.layout :=
  ⟨hw, hb, ⟨e, he, rfl, rfl, rfl⟩, r, hr, hid, rfl⟩

/-- Settles O34: the map entry with its row is found, and the answer is its header. -/
theorem rlookAnswersTheRegister : Obligations.RlookAnswersTheRegister := by
  intro s p e r hw hb he hr hid
  have hf := finds_of_mem hw hb he hr hid
  rw [exec_rlook_of_finds hf, regHeader_eq (tiled_of_finds hf)]
  rfl

/-- Settles O35: the decoded view, lane by lane. -/
theorem rdecDecodesEveryField : Obligations.RdecDecodesEveryField := by
  intro s p ctx addr id L hf hv
  have hL := tiled_of_finds hf
  refine ⟨_, _, ?_, fun k f hk => ⟨laneAt_decodedView hL id _ hk, fun hn => ?_, fun map he => ?_⟩,
    fun k hk => laneAt_decodedView_of_le hL id _ hk⟩
  · rw [exec_rdec_of_finds hf hv, complete, decodedView, regHeader_eq hL]
  · rw [laneAt_decodedView_es hL id _ hk, stateOf_num hn]
  · obtain ⟨hfm, -⟩ := mem_fields_of_lane hk
    have hw := hL.fits_sixteen f hfm
    rw [laneAt_decodedView hL id _ hk, laneAt_decodedView_es hL id _ hk]
    exact stateOf_enum he (hL.enums f hfm) (fieldOf_lt (by omega))

/-- Settles O36: raw values that agree in the fields have one decoded view, so one reply. -/
theorem reservedBitsDoNotReachTheDecodedView :
    Obligations.ReservedBitsDoNotReachTheDecodedView := by
  intro s t p ctx addr raw hagree h
  obtain ⟨u, hu, hout, -⟩ := exec_next_of_reply_eq (j := { s.inputs with rawIn := raw }) h (by
    obtain ⟨-, hmiss⟩ | ⟨id, L, hm, hL, -, hl⟩ :=
      lookup_cases p ctx addr (exec_eq_next_iff.mp h).1
    · simp only [reply, rdec, hmiss]
    · rw [reply_rdec_of_lookup _ hl, reply_rdec_of_lookup _ hl,
        decodedView_congr id (hagree id L hm hL)])
  exact ⟨u, hu, hout⟩

/-- R19: the fields of the event-code register. -/
theorem laneFields_evtcode : laneFields evtcodeLayout =
    [⟨"RELEASE", 7, 1, .num⟩, ⟨"ROW", 4, 3, .num⟩, ⟨"COLUMN", 0, 4, .num⟩] := rfl

/-- Settles O37: the three fields of the byte, as numbers. -/
theorem rdecOfTheEventCodeIsAPlainView : Obligations.RdecOfTheEventCodeIsAPlainView := by
  intro s p ctx addr id hf hv
  have hL := tiled_of_finds hf
  have lane {k : Nat} {f : Field} (hk : (laneFields evtcodeLayout)[k]? = some f) (hw : f.w ≤ 16) :
      (laneAt (decodedView id evtcodeLayout
        (assemble s.cfg p evtcodeLayout s.inputs.rawIn)).fvOut k).toNat =
      s.inputs.rawIn.toNat % 256 / 2 ^ f.off % 2 ^ f.w := by
    rw [laneAt_decodedView hL id _ hk, fieldOf_toNat _ hw, assemble_toNat, if_pos (by rfl)]
  refine ⟨_, _, exec_rdec_of_finds hf hv, complete_out _ _ _, rfl, rfl,
    (lane (k := 0) rfl (by decide)).trans ?_, (lane (k := 1) rfl (by decide)).trans ?_,
    (lane (k := 2) rfl (by decide)).trans ?_, rfl⟩
  · change _ / 128 % 2 = _
    omega
  · change _ / 16 % 8 = _
    omega
  · change _ / 1 % 16 = _
    omega

/-- Settles O38: every field of 0 is 0. -/
theorem rawZeroDecodesToZero : Obligations.RawZeroDecodesToZero := by
  intro s p ctx addr id L hf hv hraw
  have hL := tiled_of_finds hf
  refine ⟨_, _, exec_rdec_of_finds hf hv, complete_out _ _ _, rfl, fun k => ?_⟩
  change laneAt (decodedView id L (assemble s.cfg p L s.inputs.rawIn)).fvOut k = 0
  rw [hraw, assemble_zero]
  rcases Nat.lt_or_ge k (laneFields L).length with hk | hk
  · rw [laneAt_decodedView hL id 0 (List.getElem?_eq_getElem hk), fieldOf_zero]
  · exact (laneAt_decodedView_of_le hL id 0 hk).1

/-- Settles O39: the lanes are packed, and the bytes assemble to the packed value. -/
theorem rencEncodesEveryField : Obligations.RencEncodesEveryField := by
  intro s p ctx addr id L hf hfit
  have hL := tiled_of_finds hf
  obtain ⟨v, hv, hp⟩ := exists_packed hL hfit
  refine ⟨disassemble s.cfg p L v, ?_, disassemble_toNat_lt s.cfg p v, fun k f hk => ?_,
    fun f hfm hr => ?_⟩
  · rw [exec_renc_of_finds hf hv, encodedView, regHeader_eq hL]
    rfl
  · rw [hp.assemble_disassemble, hp.lanes k f hk]
  · rw [hp.assemble_disassemble, hp.reserved f hfm (isRsv_iff.mpr hr)]

/-- Settles O40: a packed value's reserved fields are 0, so each bit of them is. -/
theorem reservedBitsAreEncodedAsZero : Obligations.ReservedBitsAreEncodedAsZero := by
  intro s t p ctx addr id L o hf h ho herr f hfm hr b hlo hhi
  obtain ⟨v, hv, rfl⟩ := renc_completes hf h ho herr
  have hp := packed_of_packFields (tiled_of_finds hf) hv
  rw [complete_out, Option.some.injEq] at ho
  subst ho
  have hbit := getLsbD_fieldOf v f (b - f.off)
  have hin : b - f.off < f.w := by omega
  rw [hp.reserved f hfm (isRsv_iff.mpr hr), Nat.add_sub_cancel' hlo] at hbit
  change (assemble s.cfg p L (disassemble s.cfg p L v)).getLsbD b = false
  rw [hp.assemble_disassemble]
  simpa [hin] using hbit.symm

/-- Settles O41: the field loop reads no lane from `nf` on. -/
theorem lanesBeyondTheFieldsAreNotRead : Obligations.LanesBeyondTheFieldsAreNotRead := by
  intro s t p ctx addr id L fv hf hlanes h
  have hpack : packFields fv L.fields 0 0 = packFields s.inputs.fvIn L.fields 0 0 :=
    packFields_congr (fun j hj => by rw [Nat.zero_add]; exact hlanes j hj)
  obtain ⟨u, hu, hout, -⟩ := exec_next_of_reply_eq (j := { s.inputs with fvIn := fv }) h (by
    rw [reply_renc_of_lookup _ (lookup_of_finds hf), reply_renc_of_lookup _ (lookup_of_finds hf),
      hpack])
  exact ⟨u, hu, hout⟩

/-- R91, R87: an `RDEC` of a register completes exactly with its byte-valid bits, else no lane is
driven. -/
theorem exists_rdec_whole {s : State} {p : Profile} {ctx : Ctx} {addr : Addr} {id : RegId}
    {L : Layout} (hf : Finds s p ctx addr id L) :
    ∃ t o, exec (.rdec p ctx addr) s = .next t ∧ t.out = some o ∧
      (o.err = 0 ↔ s.inputs.bvIn = byteMask L) ∧
      (o.err ≠ 0 → o.err = 4 ∧ o.fvOut = Lanes.zero ∧ o.esOut = Lanes.zero) := by
  by_cases hv : s.inputs.bvIn = byteMask L
  · exact ⟨_, _, exec_rdec_of_finds hf hv, complete_out _ _ _, ⟨fun _ => hv, fun _ => rfl⟩,
      fun hne => absurd rfl hne⟩
  · exact ⟨_, _, exec_rdec_of_wrong_length hf hv, raiseError_out _ _,
      ⟨fun he => absurd he (err_of_raiseError (raiseError_out _ _)), fun h => absurd h hv⟩,
      fun _ => ⟨rfl, rfl, rfl⟩⟩

/-- R64, R87: an `RENC` of a register drives all its bytes or none. -/
theorem exists_renc_whole {s : State} {p : Profile} {ctx : Ctx} {addr : Addr} {id : RegId}
    {L : Layout} (hf : Finds s p ctx addr id L) :
    ∃ t o, exec (.renc p ctx addr) s = .next t ∧ t.out = some o ∧
      (o.err = 0 → o.bvOut = byteMask L ∧ (L.width = 8 → o.rawOut.toNat < 256)) ∧
      (o.err ≠ 0 → o.bvOut = 0 ∧ o.rawOut = 0) := by
  cases hv : packFields s.inputs.fvIn L.fields 0 0 with
  | ok v =>
    exact ⟨_, _, exec_renc_of_finds hf hv, complete_out _ _ _,
      fun _ => ⟨rfl, disassemble_toNat_lt s.cfg p v⟩, fun hne => absurd rfl hne⟩
  | error e =>
    exact ⟨_, _, exec_renc_of_packFields_error hf hv, raiseError_out _ _,
      fun he => absurd he (err_of_raiseError (raiseError_out _ _)), fun _ => ⟨rfl, rfl⟩⟩

/-- Settles O42: both commands move a register whole or not at all. -/
theorem registersMoveWholeOrNotAtAll : Obligations.RegistersMoveWholeOrNotAtAll :=
  fun _ _ _ _ _ _ hf => ⟨(tiled_of_finds hf).width, exists_rdec_whole hf, exists_renc_whole hf⟩

end Sys2Proof.Machine
end

section
/-! PROOFS. What a command reads and writes, beside its own ports (10_state.md R23 to R26,
20_memory.md R40, 30_encoding.md R50). -/

namespace Sys2Proof.Machine

/-- R24: a register command's reply leaves the decoder states. -/
theorem kfdAfter_of_register {k : Instr} (hk : keyProfile k = none) (c : Cfg) (i : Inputs)
    (x : PerProfile KfdState) : kfdAfter x (reply c i k) = x := by
  cases hr : reply c i k with
  | error e => rfl
  | ok q =>
    obtain ⟨o, m⟩ := q
    obtain ⟨-, rfl, -⟩ | ⟨p, k', hp, -, -⟩ := reply_eq_ok hr
    · rfl
    · rw [hk] at hp
      cases hp

/-- A decoder state once written is not changed by the same reply. -/
theorem kfdAfter_kfdAfter (x : PerProfile KfdState)
    (r : Except CmdError (Outputs × Option (Profile × KfdState))) :
    kfdAfter (kfdAfter x r) r = kfdAfter x r := by
  rcases r with e | ⟨o, _ | ⟨p, k⟩⟩
  · rfl
  · rfl
  · exact PerProfile.set_set x p k k

theorem settle_settle (s : State) (r : Except CmdError (Outputs × Option (Profile × KfdState))) :
    settle (settle s r) r = settle s r := by
  simp only [settle, complete, kfdAfter_kfdAfter]

/-- R50, R28: a key-event outcome drives the key-event ports only. -/
theorem KeyOutcome.ports_kst {i : Inputs} {o : Outputs} {k : KfdState} (h : KeyOutcome i o k)
    (kst : BitVec 2) : { o with kstOut := kst } = { Outputs.zero with
      err := o.err, errInfo := o.errInfo, kstOut := kst,
      kindOut := o.kindOut, relOut := o.relOut, rowOut := o.rowOut, colOut := o.colOut,
      roleOut := o.roleOut, moreOut := o.moreOut, lostOut := o.lostOut } := by
  rw [h.ports]

/-- Settles O16: each command's reply drives its own ports, and only the reply is settled on the
state. -/
theorem commandsDriveOnlyTheirOwnPorts : Obligations.CommandsDriveOnlyTheirOwnPorts := by
  intro i s t h
  have hget := fun p => exec_next_kfd_get (p := p) h
  obtain ⟨-, rfl⟩ := exec_eq_next_iff.mp h
  refine ⟨_, settle_out _ _, rfl, hget, fun hk => kfdAfter_of_register hk _ _ _, ?_⟩
  cases hr : reply s.cfg s.inputs i with
  | error e => cases i <;> rfl
  | ok q =>
    obtain ⟨o, m⟩ := q
    cases i with
    | rlook p ctx addr =>
      obtain ⟨-, id, L, -, rfl⟩ := reply_rlook_eq_ok hr
      rfl
    | rdec p ctx addr =>
      obtain ⟨-, id, L, -, -, rfl⟩ := reply_rdec_eq_ok hr
      rfl
    | renc p ctx addr =>
      obtain ⟨-, id, L, v, -, -, rfl⟩ := reply_renc_eq_ok hr
      rfl
    | kevS =>
      obtain ⟨k', -, ho⟩ := reply_kevS_eq_ok hr
      exact ho.ports_kst _
    | kevC =>
      obtain ⟨k', -, ho⟩ := reply_kevC_eq_ok hr
      exact ho.ports_kst _

/-- Settles O17: the reply does not read the decoder states, and `kst_out` alone shows them. -/
theorem resultsIgnoreTheDecoderState : Obligations.ResultsIgnoreTheDecoderState := by
  intro i s t k h
  obtain ⟨hw, rfl⟩ := exec_eq_next_iff.mp h
  exact ⟨_, _, _, exec_of_wf (s := { s with kfd := k }) i hw, settle_out _ _, settle_out _ _, rfl⟩

/-- Settles O18: the same inputs have the same reply, and settling it twice is settling it once. -/
theorem repeatedCommandChangesNothingMore : Obligations.RepeatedCommandChangesNothingMore := by
  intro i s t h
  obtain ⟨hw, rfl⟩ := exec_eq_next_iff.mp h
  rw [exec_of_wf (s := settle s _) i hw, settle_cfg, settle_inputs, settle_settle]

/-- R23: no reply reads the bus address constants. -/
theorem reply_busAddrDs (c : Cfg) (b : PerProfile Byte) (i : Inputs) (k : Instr) :
    reply { c with busAddrDs := b } i k = reply c i k := by
  cases k <;> rfl

/-- Of the checks of a configuration, those of R23 alone read the bus address constants. -/
theorem cfgWf_busAddrDs (c : Cfg) (b : PerProfile Byte) : ∃ others : Bool,
    cfgWf c = (others && busAddrFits c .ps && busAddrFits c .pc) ∧
    cfgWf { c with busAddrDs := b } = (others && busAddrFits { c with busAddrDs := b } .ps &&
      busAddrFits { c with busAddrDs := b } .pc) :=
  ⟨_, rfl, rfl⟩

theorem busAddrFits_iff {c : Cfg} {p : Profile} : busAddrFits c p = true ↔
    c.addrShift.get p = true ∨ (c.busAddrDs.get p).toNat < 128 := by
  simp [busAddrFits]

theorem cfgWf_busAddrDs_iff {c : Cfg} (hw : cfgWf c = true) (b : PerProfile Byte) :
    cfgWf { c with busAddrDs := b } = true ↔
      (c.addrShift.ps = true ∨ b.ps.toNat < 128) ∧ (c.addrShift.pc = true ∨ b.pc.toNat < 128) := by
  obtain ⟨others, hc, hb⟩ := cfgWf_busAddrDs c b
  have ho : others = true := by
    rw [hw] at hc
    simpa using (Bool.and_eq_true_iff.mp (Bool.and_eq_true_iff.mp hc.symm).1).1
  rw [hb, ho, Bool.true_and, Bool.and_eq_true, busAddrFits_iff, busAddrFits_iff]
  rfl

/-- Settles O21: the reply is the same, and the block goes on where the addresses fit. -/
theorem busAddressesAreReadByNoCommand : Obligations.BusAddressesAreReadByNoCommand := by
  intro i s t b h
  obtain ⟨hw, rfl⟩ := exec_eq_next_iff.mp h
  rw [exec_eq_settle]
  split
  · next hfit =>
    rw [goOn_of_wf _ ((cfgWf_busAddrDs_iff hw b).mpr hfit), reply_busAddrDs]
    rfl
  · next hfit =>
    rw [goOn_of_illFormed]
    exact Bool.eq_false_iff.mpr (fun hb => hfit ((cfgWf_busAddrDs_iff hw b).mp hb))

end Sys2Proof.Machine
end

section
/-! PROOFS. Errors: their causes, their order and what they leave (60_exceptions.md R86 to R94). -/

namespace Sys2Proof.Machine

/-- R89: the reply to every command whose transfer failed. -/
theorem reply_of_busErr {i : Inputs} (hb : i.busErrIn = true) (c : Cfg) (k : Instr) :
    reply c i k = .error .busError := by
  cases k with
  | rlook p ctx addr => rw [reply, rlook, if_pos hb]; rfl
  | rdec p ctx addr => rw [reply, rdec, if_pos hb]; rfl
  | renc p ctx addr => rw [reply, renc, if_pos hb]; rfl
  | kevS => rw [reply, kevS, if_pos hb]; rfl
  | kevC => rw [reply, kevC, if_pos hb]; rfl

/-- R91: the information of a length error. -/
theorem lengthError_info (bv : BitVec 2) :
    (CmdError.lengthError bv).info = BitVec.ofNat 8 bv.toNat :=
  (BitVec.ofNat_toNat 8 bv).symm

theorem raiseError_lengthError (s : State) (bv : BitVec 2) :
    raiseError s (.lengthError bv) = afterError s 4 (BitVec.ofNat 8 bv.toNat) := by
  rw [← lengthError_info]
  rfl

section KeyReplies

variable {c : Cfg} {i : Inputs}

/-- R91: `KEV.S` needs its byte. -/
theorem reply_kevS_of_wrong_length (hb : i.busErrIn = false) (hv : i.bvIn ≠ 0b01) :
    reply c i .kevS = .error (.lengthError i.bvIn) := by
  rw [reply, kevS, if_neg (Bool.eq_false_iff.mp hb), if_pos hv]
  rfl

/-- R91: `KEV.C` with a count needs its byte. -/
theorem reply_kevC_of_wrong_length (hb : i.busErrIn = false) (hn : eventCount c i.countIn ≠ 0)
    (hv : i.bvIn ≠ 0b01) : reply c i .kevC = .error (.lengthError i.bvIn) := by
  rw [reply, kevC, if_neg (Bool.eq_false_iff.mp hb), if_neg hn, if_pos hv]
  rfl

end KeyReplies

/-- Settles O26: the failed transfer is the first check of every command. -/
theorem busErrorStopsEveryCommand : Obligations.BusErrorStopsEveryCommand :=
  fun i _ hw hb => exec_of_reply_error hw (reply_of_busErr hb _ i)

/-- Settles O28: the three commands that read bytes check their byte-valid bits. -/
theorem wrongByteValidBitsRaiseLengthError : Obligations.WrongByteValidBitsRaiseLengthError := by
  refine ⟨fun s p ctx addr id L hf hv => ?_, fun s hw hb hv => ⟨?_, fun hn => ?_⟩⟩
  · rw [exec_rdec_of_wrong_length hf hv, raiseError_lengthError]
  · rw [exec_of_reply_error hw (reply_kevS_of_wrong_length hb hv), lengthError_info]
    rfl
  · rw [exec_of_reply_error hw (reply_kevC_of_wrong_length hb hn hv), lengthError_info]
    rfl

/-- Settles O31: a result with an error is an error's reply. -/
theorem errorsLeaveNoPartialResult : Obligations.ErrorsLeaveNoPartialResult := by
  intro i s t o h ho herr
  obtain ⟨-, rfl⟩ := exec_eq_next_iff.mp h
  rw [settle_out, Option.some.injEq] at ho
  subst ho
  cases hr : reply s.cfg s.inputs i with
  | error e => rfl
  | ok q =>
    rw [hr] at herr
    exact absurd (err_of_reply_eq_ok hr).1 herr

/-! ### The order of the causes (R94) -/

section FirstError

variable {c : Cfg} {p : Profile} {ctx : Ctx} {addr : Addr} {id : RegId} {L : Layout}

/-- The causes of an error of a legal command, in the order of R94. -/
def firstErrorOf (c : Cfg) (i : Inputs) (k : Instr) : BitVec 3 :=
  if i.busErrIn then 2
  else if addressMissing c k then 3
  else if lengthWrong c i k then 4
  else if laneTooWide c i k then 5
  else 0

/-- The field loop's only error is a lane too wide (R64). -/
theorem packFields_eq_error {fv : Lanes} {fs : List Field} {k : Nat} {v : Word} {e : CmdError}
    (h : packFields fv fs k v = .error e) : e.code = 5 := by
  induction fs generalizing k v with
  | nil => cases h
  | cons f fs ih =>
    rw [packFields] at h
    split at h
    · exact ih h
    split at h
    · cases h
      rfl
    · exact ih h

theorem layoutAt_of_entry (hm : mapEntry c p ctx addr = some id) (hL : layoutOf c id = some L) :
    layoutAt c p ctx addr = some L := by
  rw [layoutAt, hm]
  exact hL

/-- R92: some lane is too wide exactly when not every lane fits. -/
theorem laneTooWide_renc_iff (i : Inputs) (hL : layoutAt c p ctx addr = some L) :
    laneTooWide c i (.renc p ctx addr) = true ↔ ¬ LanesFit L i.fvIn := by
  simp only [laneTooWide, hL, Option.any_some, List.any_eq_true, Prod.exists, LanesFit,
    List.mem_zipIdx_iff_getElem?, decide_eq_true_eq, not_forall, Nat.not_lt]
  exact ⟨fun ⟨f, k, hk, hwide⟩ => ⟨k, f, hk, hwide⟩, fun ⟨k, f, hk, hwide⟩ => ⟨f, k, hk, hwide⟩⟩

/-- R92: lanes that do not all fit are reported. -/
theorem packFields_of_not_fit {fv : Lanes} (hL : Tiled L) (h : ¬ LanesFit L fv) :
    ∃ e, packFields fv L.fields 0 0 = .error e ∧ e.code = 5 := by
  cases hv : packFields fv L.fields 0 0 with
  | ok v => exact absurd (packed_of_packFields hL hv).fit h
  | error e => exact ⟨e, rfl, packFields_eq_error hv⟩

theorem err_of_ok {i : Inputs} {k : Instr} {q : Outputs × Option (Profile × KfdState)}
    (h : reply c i k = .ok q) : (portsOf (reply c i k)).err = 0 := by
  rw [h]
  exact (err_of_reply_eq_ok h).1

theorem err_of_error {i : Inputs} {k : Instr} {e : CmdError} (h : reply c i k = .error e) :
    (portsOf (reply c i k)).err = e.code := by
  rw [h]
  rfl

section Register

variable (hw : cfgWf c = true) {i : Inputs} (hb : i.busErrIn = false)
include hw hb

theorem err_reply_rlook : (portsOf (reply c i (.rlook p ctx addr))).err =
    firstErrorOf c i (.rlook p ctx addr) := by
  obtain ⟨hm, hl⟩ | ⟨id, L, hm, -, -, hl⟩ := lookup_cases p ctx addr hw
  · have hr : reply c i (.rlook p ctx addr) = .error (.invalidAddress addr) := by
      rw [reply, rlook_of_lookup_error hb hl]
      rfl
    simp [err_of_error hr, firstErrorOf, hb, addressMissing, hm, CmdError.code]
  · have hr : reply c i (.rlook p ctx addr) = .ok (regHeader id L, none) := by
      rw [reply_rlook_of_lookup i hl, if_neg (Bool.eq_false_iff.mp hb)]
    simp [err_of_ok hr, firstErrorOf, hb, addressMissing, hm, lengthWrong, laneTooWide]

theorem err_reply_rdec : (portsOf (reply c i (.rdec p ctx addr))).err =
    firstErrorOf c i (.rdec p ctx addr) := by
  obtain ⟨hm, hl⟩ | ⟨id, L, hm, hL, -, hl⟩ := lookup_cases p ctx addr hw
  · have hr : reply c i (.rdec p ctx addr) = .error (.invalidAddress addr) := by
      rw [reply, rdec_of_lookup_error hb hl]
      rfl
    simp [err_of_error hr, firstErrorOf, hb, addressMissing, hm, CmdError.code]
  · have hlen : lengthWrong c i (.rdec p ctx addr) = (i.bvIn != byteMask L) := by
      rw [lengthWrong, layoutAt_of_entry hm hL]
      rfl
    have hr := reply_rdec_of_lookup i hl
    rw [if_neg (Bool.eq_false_iff.mp hb)] at hr
    by_cases hv : i.bvIn = byteMask L
    · rw [if_neg (not_not.mpr hv)] at hr
      simp [err_of_ok hr, firstErrorOf, hb, addressMissing, hm, hlen, hv, laneTooWide]
    · rw [if_pos hv] at hr
      simp [err_of_error hr, firstErrorOf, hb, addressMissing, hm, hlen, hv, CmdError.code]

theorem err_reply_renc : (portsOf (reply c i (.renc p ctx addr))).err =
    firstErrorOf c i (.renc p ctx addr) := by
  obtain ⟨hm, hl⟩ | ⟨id, L, hm, hL, hT, hl⟩ := lookup_cases p ctx addr hw
  · have hr : reply c i (.renc p ctx addr) = .error (.invalidAddress addr) := by
      rw [reply, renc_of_lookup_error hb hl]
      rfl
    simp [err_of_error hr, firstErrorOf, hb, addressMissing, hm, CmdError.code]
  · have hwide := laneTooWide_renc_iff i (layoutAt_of_entry hm hL)
    have hr := reply_renc_of_lookup i hl
    rw [if_neg (Bool.eq_false_iff.mp hb)] at hr
    by_cases hfit : LanesFit L i.fvIn
    · obtain ⟨v, hv, -⟩ := exists_packed hT hfit
      rw [hv] at hr
      simp [err_of_ok hr, firstErrorOf, hb, addressMissing, hm, lengthWrong, hwide, hfit]
    · obtain ⟨e, he, hcode⟩ := packFields_of_not_fit hT hfit
      rw [he] at hr
      simp [err_of_error hr, firstErrorOf, hb, addressMissing, hm, lengthWrong, hwide, hfit, hcode]

end Register

theorem err_reply_kevS {i : Inputs} (hb : i.busErrIn = false) :
    (portsOf (reply c i .kevS)).err = firstErrorOf c i .kevS := by
  by_cases hv : i.bvIn = 0b01
  · obtain ⟨o, k, hok, -⟩ := exists_kevS_ok c hb hv
    have hr : reply c i .kevS = .ok (o, some (.ps, k)) := by rw [reply, hok]; rfl
    simp [err_of_ok hr, firstErrorOf, hb, addressMissing, lengthWrong, hv, laneTooWide]
  · have hr : reply c i .kevS = _ := reply_kevS_of_wrong_length hb hv
    have hlen : lengthWrong c i .kevS = true := bne_iff_ne.mpr hv
    simp [err_of_error hr, firstErrorOf, hb, addressMissing, hlen, CmdError.code]

theorem err_reply_kevC {i : Inputs} (hb : i.busErrIn = false) :
    (portsOf (reply c i .kevC)).err = firstErrorOf c i .kevC := by
  have hlen : lengthWrong c i .kevC = true ↔ ¬ (eventCount c i.countIn = 0 ∨ i.bvIn = 0b01) := by
    simp [lengthWrong, eventCount]
  by_cases h : eventCount c i.countIn = 0 ∨ i.bvIn = 0b01
  · obtain ⟨o, k, hok, -⟩ := exists_kevC_ok c hb h
    have hr : reply c i .kevC = .ok (o, some (.pc, k)) := by rw [reply, hok]; rfl
    simp [err_of_ok hr, firstErrorOf, hb, addressMissing, mt hlen.mp (not_not.mpr h), laneTooWide]
  · obtain ⟨hn, hv⟩ := not_or.mp h
    have hr : reply c i .kevC = _ := reply_kevC_of_wrong_length hb hn hv
    simp [err_of_error hr, firstErrorOf, hb, addressMissing, hlen.mpr h, CmdError.code]

/-- R94: the code of a legal command's result is that of its first cause of an error. -/
theorem err_reply (hw : cfgWf c = true) (i : Inputs) (k : Instr) :
    (portsOf (reply c i k)).err = firstErrorOf c i k := by
  cases hb : i.busErrIn with
  | true =>
    rw [reply_of_busErr hb, firstErrorOf, if_pos hb]
    rfl
  | false =>
    cases k with
    | rlook p ctx addr => exact err_reply_rlook hw hb
    | rdec p ctx addr => exact err_reply_rdec hw hb
    | renc p ctx addr => exact err_reply_renc hw hb
    | kevS => exact err_reply_kevS hb
    | kevC => exact err_reply_kevC hb

theorem err_replyTo (hw : cfgWf c = true) (i : Inputs) :
    (portsOf (replyTo c i)).err = firstError c i := by
  cases hd : decode i.cmd with
  | error e => simp only [replyTo, firstError, hd]; rfl
  | ok k =>
    simp only [replyTo, firstError, hd]
    exact err_reply hw i k

end FirstError

/-- Settles O30: a command's step shows the code of its reply. -/
theorem firstErrorInOrderIsReported : Obligations.FirstErrorInOrderIsReported := by
  intro s t i rest o hp h ho
  have hw := wf_of_step h
  rw [step_command hw hp] at h
  cases h
  rw [settle_out, Option.some.injEq] at ho
  subst ho
  exact err_replyTo hw i

end Sys2Proof.Machine
end

section
/-! PROOFS. One step of the block: a command, an illegal word, the reset event, and the stops
(20_memory.md R41, 70_reset_and_hazards.md R100, R107, R109, 00_scope.md R8). -/

namespace Sys2Proof.Machine

theorem step_of_decode_ok {s : State} {i : Inputs} {rest : List HostEvent} {k : Instr}
    (hp : s.pending = .command i :: rest) (hd : decode i.cmd = .ok k) :
    step s = exec k (sample s i rest) := by
  simp only [step, hp, runCommand, sample_inputs, hd]

theorem step_of_reset {s : State} {rest : List HostEvent} (hw : cfgWf s.cfg = true)
    (hp : s.pending = .reset :: rest) :
    step s = .next (resetBlock { s with pending := rest }) := by
  simp only [step, hp]
  exact goOn_of_wf _ hw

theorem step_of_no_event {s : State} (hp : s.pending = []) : step s = endRun s := by
  simp only [step, hp]

/-- R8: a block with an ill-formed configuration refuses every command. -/
theorem exec_of_illFormed {s : State} (hw : cfgWf s.cfg = false) (i : Instr) :
    exec i s = .refused .illFormedConfiguration := by
  rw [exec_eq_settle, goOn_of_illFormed _ hw]

/-- R8: and every step, whatever the host does next. -/
theorem step_of_illFormed {s : State} (hw : cfgWf s.cfg = false) :
    step s = .refused .illFormedConfiguration := by
  cases hp : s.pending with
  | nil => rw [step_of_no_event hp, endRun, if_neg (Bool.eq_false_iff.mp hw)]
  | cons e rest =>
    cases e with
    | reset =>
      simp only [step, hp]
      exact goOn_of_illFormed _ hw
    | command i =>
      cases hd : decode i.cmd with
      | ok k => rw [step_of_decode_ok hp hd, exec_of_illFormed (s := sample s i rest) hw]
      | error w =>
        simp only [step, hp, runCommand, sample_inputs, hd]
        exact goOn_of_illFormed _ hw

theorem highLane_eq_ofNat (v : Word) : highLane v = BitVec.ofNat 8 (v.toNat / 256) := by
  apply BitVec.eq_of_toNat_eq
  rw [highLane_toNat, BitVec.toNat_ofNat]
  omega

/-- Settles O5: the step decodes the sampled word. -/
theorem stepRunsTheDecodedCommand : Obligations.StepRunsTheDecodedCommand :=
  fun _ _ _ _ hp hd => step_of_decode_ok hp hd

/-- Settles O6: the reply to an illegal word is its error. -/
theorem illegalWordRaisesIllegalCommand : Obligations.IllegalWordRaisesIllegalCommand := by
  intro s i rest e hw hp hd
  have hr : replyTo s.cfg i = .error (.illegalCommand (highLane i.cmd)) := by rw [replyTo, hd]
  rw [step_command hw hp, hr, settle_error, ← highLane_eq_ofNat]
  rfl

/-- Settles O7: the reset event writes the decoder states and the result only. -/
theorem resetEventIdlesBothDecoders : Obligations.ResetEventIdlesBothDecoders :=
  fun _ _ hw hp => step_of_reset hw hp

/-- Settles O8: the state after reset, field by field. -/
theorem resetLeavesBothDecodersIdle : Obligations.ResetLeavesBothDecodersIdle := by
  intro c
  simp

/-- Settles O9: with no event left the step stops. -/
theorem noFurtherCommandEndsTheRun : Obligations.NoFurtherCommandEndsTheRun := by
  intro s hw hp
  rw [step_of_no_event hp, endRun, if_pos hw]

/-- Settles O10: every use of the block goes through the refusal. -/
theorem illFormedBlockIsRefused : Obligations.IllFormedBlockIsRefused := by
  intro s hw
  have hrun (commands : List Inputs) :
      runFromReset s.cfg commands = .refused .illFormedConfiguration :=
    runCommands_of_illFormed (s := State.resetWith s.cfg) hw commands
  exact ⟨step_of_illFormed hw, exec_of_illFormed hw, runCommands_of_illFormed hw,
    fun commands => ⟨hrun commands, by rw [observation, hrun]⟩⟩

/-- Settles O13: the reply is settled on the sampled state in the one step. -/
theorem everyCommandCompletesInOneStep : Obligations.EveryCommandCompletesInOneStep :=
  fun _ _ _ hw hp => ⟨_, _, step_command hw hp, settle_out _ _, rfl, rfl, rfl⟩

end Sys2Proof.Machine
end

section
/-! PROOFS. Runs of the block (70_reset_and_hazards.md R109): every command answers, and the decoder
states are the one thing that the commands before it leave to it (10_state.md R25). -/

namespace Sys2Proof.Machine

/-- R107: a well-formed block answers every command of a run. -/
theorem exists_run {s : State} (hw : cfgWf s.cfg = true) (commands : List Inputs) :
    ∃ results u, runCommands s commands = .next (results, u) ∧
      results.length = commands.length := by
  induction commands generalizing s with
  | nil => exact ⟨[], s, runCommands_nil hw, rfl⟩
  | cons i rest ih =>
    obtain ⟨results, u, hrun, hlen⟩ := ih (s := afterCommand s i) hw
    exact ⟨_, u, runCommands_cons hw hrun, congrArg (· + 1) hlen⟩

/-- A run that answers results is of a well-formed block. -/
theorem wf_of_run {s : State} {commands : List Inputs} {q : List Outputs × State}
    (h : runCommands s commands = .next q) : cfgWf s.cfg = true := by
  cases hw : cfgWf s.cfg with
  | true => rfl
  | false =>
    rw [runCommands_of_illFormed hw] at h
    cases h

/-- A run of two commands. -/
theorem runCommands_pair {s : State} (hw : cfgWf s.cfg = true) (a b : Inputs) :
    runCommands s [a, b] = .next ([resultOf s a, resultOf (afterCommand s a) b],
      afterCommand (afterCommand s a) b) :=
  runCommands_cons hw (runCommands_cons (s := afterCommand s a) hw (runCommands_nil hw))

theorem runCommands_single {s : State} (hw : cfgWf s.cfg = true) (i : Inputs) :
    runCommands s [i] = .next ([resultOf s i], afterCommand s i) :=
  runCommands_cons hw (runCommands_nil hw)

/-- The reply to the word of a command. -/
theorem replyTo_of_decode {i : Inputs} {k : Instr} (hd : decode i.cmd = .ok k) (c : Cfg) :
    replyTo c i = reply c i k := by
  rw [replyTo, hd]

/-- R25: a result is its command's reply, `kst_out` apart. -/
theorem resultOf_eq (s : State) (i : Inputs) :
    sansKst (resultOf s i) = sansKst (portsOf (replyTo s.cfg i)) := rfl

/-- R24: a register command leaves to the next command what it found. -/
theorem afterCommand_kfd_of_register {i : Inputs} {k : Instr} (hd : decode i.cmd = .ok k)
    (hk : keyProfile k = none) (s : State) : (afterCommand s i).kfd = s.kfd := by
  rw [afterCommand_kfd, replyTo_of_decode hd, kfdAfter_of_register hk]

/-- A result depends on the state through its configuration and decoder states. -/
theorem resultOf_congr {s t : State} (hc : t.cfg = s.cfg) (hk : t.kfd = s.kfd) (i : Inputs) :
    resultOf t i = resultOf s i := by
  rw [resultOf, resultOf, hc, hk]

/-- In a run each result is its command's reply, `kst_out` apart. -/
theorem sansKst_of_mem_run {s u : State} {commands : List Inputs} {results : List Outputs}
    (h : runCommands s commands = .next (results, u)) {i : Inputs} {o : Outputs}
    (hm : (i, o) ∈ commands.zip results) : sansKst o = sansKst (portsOf (replyTo s.cfg i)) := by
  induction commands generalizing s results with
  | nil => simp at hm
  | cons j rest ih =>
    obtain ⟨-, more, rfl, hrest⟩ := runCommands_cons_eq_next h
    rw [List.zip_cons_cons, List.mem_cons, Prod.mk.injEq] at hm
    obtain ⟨rfl, rfl⟩ | hm := hm
    · exact resultOf_eq s i
    · have hres := ih hrest hm
      exact hres

/-- Settles O19: the register command's reply does not depend on when it is given, and the other
command finds the same decoder states on either side of it. -/
theorem registerCommandsCommuteWithEveryCommand :
    Obligations.RegisterCommandsCommuteWithEveryCommand := by
  intro s a b k o₁ o₂ u hd hk h
  have hw := wf_of_run h
  rw [runCommands_pair hw] at h
  cases h
  have hkfd := afterCommand_kfd_of_register hd hk
  rw [resultOf_congr (t := afterCommand s a) (s := s) rfl (hkfd s)]
  refine ⟨_, _, runCommands_pair hw b a, ?_, rfl⟩
  rw [hkfd (afterCommand s b), afterCommand_kfd, afterCommand_kfd, afterCommand_cfg, hkfd s]

/-- Settles O22: by induction on the commands. -/
theorem runYieldsOneResultPerCommand : Obligations.RunYieldsOneResultPerCommand :=
  fun c commands hw => exists_run (s := State.resetWith c) hw commands

/-- Settles O23: both results are the command's reply. -/
theorem resultsDoNotDependOnHistory : Obligations.ResultsDoNotDependOnHistory := by
  intro c commands results u h j i o hi ho
  have hw : cfgWf c = true := wf_of_run (s := State.resetWith c) h
  refine ⟨_, _, runCommands_single (s := State.resetWith c) hw i, ?_⟩
  have hm : (i, o) ∈ commands.zip results :=
    List.mem_of_getElem? (List.getElem?_zip_eq_some.mpr ⟨hi, ho⟩)
  exact (resultOf_eq (State.resetWith c) i).trans
    (sansKst_of_mem_run (s := State.resetWith c) h hm).symm

/-! ### The decoder states along a run (R24, R72) -/

/-- The state of profile `p` after a command, from the command's own result: the chaining verdict of
a key-event command of `p` that raised no error, and what it was after any other. -/
theorem kfdAfter_get (c : Cfg) (i : Inputs) (p : Profile) (x : PerProfile KfdState) {k : Instr} :
    (kfdAfter x (reply c i k)).get p =
      if keyProfile k = some p ∧ (portsOf (reply c i k)).err = 0 then
        nextKfd (portsOf (reply c i k)).moreOut
      else x.get p := by
  cases hr : reply c i k with
  | error e => exact (if_neg (fun h => e.code_ne_zero h.2)).symm
  | ok q =>
    obtain ⟨o, m⟩ := q
    have herr : (portsOf (.ok (o, m))).err = 0 := (err_of_reply_eq_ok hr).1
    obtain ⟨hk, rfl, -⟩ | ⟨q, k', hk, rfl, ho⟩ := reply_eq_ok hr
    · simp [hk, kfdAfter]
    · by_cases hp : p = q
      · subst hp
        rw [if_pos ⟨hk, herr⟩, kfdAfter, PerProfile.get_set_same]
        exact ho.next
      · rw [if_neg (fun h => hp (Option.some.inj (hk.symm.trans h.1)).symm)]
        exact PerProfile.get_set_of_ne x k' hp

/-- R72 for one command of a run. -/
theorem verdictAfter_cons (p : Profile) (s : State) (i : Inputs) (l : List (Inputs × Outputs)) :
    verdictAfter p ((i, resultOf s i) :: l) (s.kfd.get p) =
      verdictAfter p l ((afterCommand s i).kfd.get p) := by
  rw [verdictAfter, afterCommand_kfd]
  cases hd : decode i.cmd with
  | error e => simp only [replyTo, hd]; rfl
  | ok k =>
    have hres : (resultOf s i).err = (portsOf (reply s.cfg i k)).err ∧
        (resultOf s i).moreOut = (portsOf (reply s.cfg i k)).moreOut := by
      rw [← replyTo_of_decode hd]
      exact ⟨rfl, rfl⟩
    simp only [replyTo_of_decode hd, kfdAfter_get, hres.1, hres.2]
    split <;> rfl

theorem kfd_get_of_run {s u : State} {commands : List Inputs} {results : List Outputs}
    (h : runCommands s commands = .next (results, u)) (p : Profile) :
    u.kfd.get p = verdictAfter p (commands.zip results) (s.kfd.get p) := by
  induction commands generalizing s results with
  | nil =>
    rw [runCommands_nil (wf_of_run h)] at h
    cases h
    rfl
  | cons i rest ih =>
    obtain ⟨-, more, rfl, hrest⟩ := runCommands_cons_eq_next h
    rw [ih hrest, List.zip_cons_cons, verdictAfter_cons]

theorem results_length {s u : State} {commands : List Inputs} {results : List Outputs}
    (h : runCommands s commands = .next (results, u)) : results.length = commands.length := by
  obtain ⟨results', u', h', hlen⟩ := exists_run (wf_of_run h) commands
  rw [h] at h'
  cases h'
  exact hlen

/-- Settles O24: the verdict is followed command by command. -/
theorem finalDecoderStateIsTheLastVerdict : Obligations.FinalDecoderStateIsTheLastVerdict := by
  intro c commands results u p h
  refine ⟨results_length (s := State.resetWith c) h, ?_⟩
  rw [kfd_get_of_run (s := State.resetWith c) h p, resetWith_kfd]
  cases p <;> rfl

/-! ### Drains (R85) -/

/-- The results of a profile's key events are those of commands that are its key events. -/
theorem mem_keyEventsOf {p : Profile} {l : List (Inputs × Outputs)} {o : Outputs}
    (h : o ∈ keyEventsOf p l) :
    ∃ i k, (i, o) ∈ l ∧ decode i.cmd = .ok k ∧ keyProfile k = some p := by
  induction l with
  | nil => cases h
  | cons q rest ih =>
    obtain ⟨i, o'⟩ := q
    have later (h' : o ∈ keyEventsOf p rest) :
        ∃ j k, (j, o) ∈ (i, o') :: rest ∧ decode j.cmd = .ok k ∧ keyProfile k = some p := by
      obtain ⟨j, k, hm, hd, hk⟩ := ih h'
      exact ⟨j, k, List.mem_cons_of_mem _ hm, hd, hk⟩
    rw [keyEventsOf] at h
    split at h
    · exact later h
    · next k hd =>
      split at h
      · next hk =>
        rcases List.mem_cons.mp h with rfl | h'
        · exact ⟨i, k, List.mem_cons_self, hd, hk⟩
        · exact later h'
      · exact later h

/-- Before its last result a drain has chained on. -/
theorem mem_dropLast_upToLastEvent {l : List Outputs} {o : Outputs}
    (h : o ∈ (upToLastEvent l).dropLast) : o ∈ l ∧ o.moreOut = true := by
  induction l with
  | nil => cases h
  | cons a rest ih =>
    rw [upToLastEvent] at h
    split at h
    · next hmore =>
      have hcons : o = a ∨ o ∈ (upToLastEvent rest).dropLast := by
        cases hrest : upToLastEvent rest with
        | nil => simp [hrest] at h
        | cons b tail => simpa [hrest] using h
      rcases hcons with rfl | h'
      · exact ⟨List.mem_cons_self, hmore⟩
      · exact ⟨List.mem_cons_of_mem _ (ih h').1, (ih h').2⟩
    · cases h

/-- R71, R72: a key event that chains on is a record. -/
theorem record_of_moreOut {c : Cfg} {i : Inputs} {k : Instr} {p : Profile}
    (hk : keyProfile k = some p) (hmore : (portsOf (reply c i k)).moreOut = true) :
    (portsOf (reply c i k)).err = 0 ∧
      ((portsOf (reply c i k)).kindOut = 1 ∨ (portsOf (reply c i k)).kindOut = 3) := by
  cases hr : reply c i k with
  | error e =>
    rw [hr] at hmore
    cases hmore
  | ok q =>
    obtain ⟨o, m⟩ := q
    rw [hr] at hmore
    refine ⟨(err_of_reply_eq_ok hr).1, ?_⟩
    obtain ⟨hk', -⟩ | ⟨q, k', -, -, ho⟩ := reply_eq_ok hr
    · rw [hk] at hk'
      cases hk'
    · obtain ⟨hkind, -⟩ | ⟨hkind, -⟩ | ⟨-, -, -, -, -, hno⟩ := ho.kind
      · exact .inl hkind
      · exact .inr hkind
      · exact absurd hmore (by simp [portsOf, hno])

/-- Settles O25: before its last result a drain has chained on, so it has read records. -/
theorem drainHasOnlyRecordsBeforeItsLast : Obligations.DrainHasOnlyRecordsBeforeItsLast := by
  intro c commands results u p n h o ho
  obtain ⟨hmem, hmore⟩ := mem_dropLast_upToLastEvent ho
  obtain ⟨i, k, hm, hd, hk⟩ := mem_keyEventsOf hmem
  have hres := sansKst_of_mem_run (s := State.resetWith c) h (List.mem_of_mem_drop hm)
  rw [replyTo_of_decode hd] at hres
  have hrec := record_of_moreOut hk ((congrArg Outputs.moreOut hres).symm.trans hmore)
  exact ⟨(congrArg Outputs.err hres).trans hrec.1,
    hrec.2.imp (congrArg Outputs.kindOut hres).trans (congrArg Outputs.kindOut hres).trans⟩

end Sys2Proof.Machine
end

section
/-! PROOFS. The key-event commands: their replies case by case, and their fields as numbers
(42_key_event_fifo_decoder.md R71 to R82). -/

namespace Sys2Proof.Machine

/-- R74: a byte with another COLUMN is no sentinel. -/
theorem not_isSentinel_of_colS {e : Byte} (hc : colS e ≠ 15#4) : ¬ isSentinel e = true := by
  rw [isSentinel_iff]
  rw [ne_eq, colS_eq_fifteen_iff] at hc
  omega

section Replies

variable {c : Cfg} {i : Inputs} (hb : i.busErrIn = false)
include hb

/-- R75: the reply to the sentinel. -/
theorem reply_kevS_of_sentinel (hv : i.bvIn = 0b01) (hs : isSentinel (lowLane i.rawIn) = true) :
    reply c i .kevS = .ok ({ Outputs.zero with
      kindOut := KeyKind.empty.code, lostOut := i.lostIn }, some (.ps, .idle)) := by
  simp only [reply, kevS, if_neg (Bool.eq_false_iff.mp hb), if_neg (not_not.mpr hv), if_pos hs]
  rfl

/-- R74: the reply to a key. -/
theorem reply_kevS_of_key (hv : i.bvIn = 0b01) (hc : colS (lowLane i.rawIn) ≠ 15#4) :
    reply c i .kevS = .ok ({ Outputs.zero with
      relOut := releaseS (lowLane i.rawIn)
      rowOut := (rowS (lowLane i.rawIn)).setWidth 8
      colOut := (colS (lowLane i.rawIn)).setWidth 8
      moreOut := i.moreIn
      lostOut := i.lostIn
      kindOut := KeyKind.key.code
      roleOut := (roleS c.colRole (colS (lowLane i.rawIn))).code },
      some (.ps, nextKfd i.moreIn)) := by
  simp only [reply, kevS, if_neg (Bool.eq_false_iff.mp hb), if_neg (not_not.mpr hv),
    if_neg (not_isSentinel_of_colS hc), if_neg hc]
  rfl

/-- R76: the reply to an undefined code. -/
theorem reply_kevS_of_undefined (hv : i.bvIn = 0b01) (hs : ¬ isSentinel (lowLane i.rawIn) = true)
    (hc : colS (lowLane i.rawIn) = 15#4) :
    reply c i .kevS = .ok ({ Outputs.zero with
      relOut := releaseS (lowLane i.rawIn)
      rowOut := (rowS (lowLane i.rawIn)).setWidth 8
      colOut := (colS (lowLane i.rawIn)).setWidth 8
      moreOut := i.moreIn
      lostOut := i.lostIn
      kindOut := KeyKind.invalid.code }, some (.ps, nextKfd i.moreIn)) := by
  simp only [reply, kevS, if_neg (Bool.eq_false_iff.mp hb), if_neg (not_not.mpr hv), if_neg hs,
    if_pos hc]
  rfl

/-- R80: the reply to a count of 0. -/
theorem reply_kevC_of_zero (hn : eventCount c i.countIn = 0) :
    reply c i .kevC = .ok ({ Outputs.zero with
      kindOut := KeyKind.empty.code, lostOut := i.lostIn }, some (.pc, .idle)) := by
  simp only [reply, kevC, if_neg (Bool.eq_false_iff.mp hb), if_pos hn]
  rfl

/-- R80: the reply to an event record. -/
theorem reply_kevC_of_count (hv : i.bvIn = 0b01) (hn : eventCount c i.countIn ≠ 0) :
    reply c i .kevC = .ok ({ Outputs.zero with
      relOut := (lowLane i.rawIn).getLsbD c.evtC.relBit == c.evtC.relVal
      rowOut := recordField (lowLane i.rawIn) c.evtC.rowOff c.evtC.rowW
      colOut := recordField (lowLane i.rawIn) c.evtC.colOff c.evtC.colW
      roleOut := Role.matrix.code
      kindOut := KeyKind.key.code
      moreOut := decide (2 ≤ eventCount c i.countIn)
      lostOut := i.lostIn }, some (.pc, nextKfd (decide (2 ≤ eventCount c i.countIn)))) := by
  simp only [reply, kevC, if_neg (Bool.eq_false_iff.mp hb), if_neg hn, if_neg (not_not.mpr hv)]
  rfl

end Replies

/-! ### The fields of an event byte as numbers (R19, R73, R79) -/

theorem releaseS_lowLane (raw : Word) : releaseS (lowLane raw) = raw.getLsbD 7 :=
  getLsbD_lowLane raw 7

theorem rowS_lowLane (raw : Word) :
    (rowS (lowLane raw)).setWidth 8 = BitVec.ofNat 8 (raw.toNat / 16 % 8) := by
  apply BitVec.eq_of_toNat_eq
  rw [rowS, BitVec.toNat_setWidth_of_le (by decide), BitVec.extractLsb'_toNat,
    Nat.shiftRight_eq_div_pow, lowLane_toNat, BitVec.toNat_ofNat]
  omega

theorem colS_lowLane_toNat (raw : Word) : (colS (lowLane raw)).toNat = raw.toNat % 16 := by
  rw [colS, BitVec.extractLsb'_toNat, Nat.shiftRight_eq_div_pow, lowLane_toNat]
  omega

theorem colS_lowLane (raw : Word) :
    (colS (lowLane raw)).setWidth 8 = BitVec.ofNat 8 (raw.toNat % 16) := by
  apply BitVec.eq_of_toNat_eq
  rw [BitVec.toNat_setWidth_of_le (by decide), colS_lowLane_toNat, BitVec.toNat_ofNat]
  omega

theorem taggedRole_code (r : TaggedRole) : (taggedRole r).code = if r = .sfkey then 1 else 2 := by
  cases r <;> rfl

/-- R73: the role code of a key's column. -/
theorem roleS_code (r : ColRole) {col : BitVec 4} (hc : col ≠ 15#4) : (roleS r col).code =
    if col.toNat < 12 then 0
    else if col.toNat = 12 then (if r.c12 = .sfkey then 1 else 2)
    else if col.toNat = 13 then (if r.c13 = .sfkey then 1 else 2)
    else (if r.c14 = .sfkey then 1 else 2) := by
  have hlt := col.isLt
  simp only [ne_eq, ← BitVec.toNat_inj, BitVec.toNat_ofNat] at hc
  simp only [roleS, ← BitVec.toNat_inj, BitVec.toNat_ofNat]
  rcases (by omega : col.toNat < 12 ∨ col.toNat = 12 ∨ col.toNat = 13 ∨ col.toNat = 14) with
    h | h | h | h
  · rw [if_pos h, if_neg (by omega), if_neg (by omega), if_neg (by omega)]
    rfl
  · simp [h, taggedRole_code]
  · simp [h, taggedRole_code]
  · simp [h, taggedRole_code]

/-- R80: a field of the event record as a number. -/
theorem recordField_eq (e : Byte) (off : Nat) {w : Nat} (hw : w ≤ 8) :
    recordField e off w = BitVec.ofNat 8 (e.toNat / 2 ^ off % 2 ^ w) := by
  have hpow : 2 ^ w ≤ 2 ^ 8 := Nat.pow_le_pow_right (by omega) hw
  have hmask : (2 ^ w - 1) % 2 ^ 8 = 2 ^ w - 1 := Nat.mod_eq_of_lt (by omega)
  apply BitVec.eq_of_toNat_eq
  rw [recordField, BitVec.toNat_and, BitVec.toNat_ushiftRight, BitVec.toNat_ofNat, hmask,
    Nat.and_two_pow_sub_one_eq_mod, Nat.shiftRight_eq_div_pow, BitVec.toNat_ofNat]
  exact (Nat.mod_eq_of_lt ((Nat.mod_lt _ (by positivity)).trans_le hpow)).symm

/-- R79: the release flag is the record's bit at its release value. -/
theorem getLsbD_beq (e : Byte) (b : Nat) (v : Bool) :
    (e.getLsbD b == v) = decide (e.toNat / 2 ^ b % 2 = if v then 1 else 0) := by
  rw [← BitVec.testBit_toNat, Nat.testBit_eq_decide_div_mod_eq]
  cases v with
  | true => simp
  | false =>
    have : e.toNat / 2 ^ b % 2 < 2 := Nat.mod_lt _ (by decide)
    by_cases h : e.toNat / 2 ^ b % 2 = 1
    · simp [h]
    · simp [show e.toNat / 2 ^ b % 2 = 0 by omega]

/-- R79: the fields of an event record are at most a byte wide. -/
theorem evtC_widths_le {c : Cfg} (hw : cfgWf c = true) : c.evtC.rowW ≤ 8 ∧ c.evtC.colW ≤ 8 := by
  have h := (cfgFacts_of_wf hw).evtC
  simp only [evtCOk, Bool.and_eq_true, decide_eq_true_eq] at h
  omega

/-- Settles O45: the sentinel as a number. -/
theorem kevSOnTheSentinelAnswersEmpty : Obligations.KevSOnTheSentinelAnswersEmpty := by
  intro s hw hb hv hraw
  have hs : isSentinel (lowLane s.inputs.rawIn) = true := by
    rw [isSentinel_iff, lowLane_toNat]
    omega
  rw [exec_of_wf _ hw, reply_kevS_of_sentinel hb hv hs]
  rfl

/-- Settles O46: a key's fields and role as numbers. -/
theorem kevSOnAKeyAnswersItsFieldsAndRole : Obligations.KevSOnAKeyAnswersItsFieldsAndRole := by
  rintro s next hw hb hv hcol rfl
  have hc : colS (lowLane s.inputs.rawIn) ≠ 15#4 := by
    rw [ne_eq, colS_eq_fifteen_iff, lowLane_toNat]
    omega
  rw [exec_of_wf _ hw, reply_kevS_of_key hb hv hc, releaseS_lowLane, rowS_lowLane, colS_lowLane,
    roleS_code _ hc, colS_lowLane_toNat]
  rfl

/-- Settles O47: an undefined code's fields as numbers. -/
theorem kevSOnAnUndefinedCodeAnswersInvalid :
    Obligations.KevSOnAnUndefinedCodeAnswersInvalid := by
  rintro s next hw hb hv hcol hrow rfl
  have hs : ¬ isSentinel (lowLane s.inputs.rawIn) = true := by
    rw [isSentinel_iff, lowLane_toNat]
    omega
  have hc : colS (lowLane s.inputs.rawIn) = 15#4 := by
    rw [colS_eq_fifteen_iff, lowLane_toNat]
    omega
  rw [exec_of_wf _ hw, reply_kevS_of_undefined hb hv hs hc, releaseS_lowLane, rowS_lowLane, hc]
  rfl

/-- Settles O48: the count is read before the byte. -/
theorem kevCWithCountZeroAnswersEmpty : Obligations.KevCWithCountZeroAnswersEmpty := by
  intro s hw hb hn
  rw [exec_of_wf _ hw, reply_kevC_of_zero hb hn]
  rfl

/-- Settles O49: an event record's fields as numbers. -/
theorem kevCWithACountAnswersAKey : Obligations.KevCWithACountAnswersAKey := by
  rintro s next n e hw hb hv rfl hn rfl rfl
  obtain ⟨hrow, hcol⟩ := evtC_widths_le hw
  rw [exec_of_wf _ hw, reply_kevC_of_count hb hv hn, recordField_eq _ _ hrow,
    recordField_eq _ _ hcol, getLsbD_beq, lowLane_toNat]
  simp only [settle, complete, kfdAfter, portsOf, nextKfd, decide_eq_true_eq]
  rfl

/-! ### The outcomes and the decoder states (R71, R72, R78) -/

/-- The result of a command with the decoder states it leaves: an error's, a register command's, or
a key-event outcome's. -/
theorem exec_result_cases {i : Instr} {s t : State} {o : Outputs} (h : exec i s = .next t)
    (ho : t.out = some o) :
    (o.err ≠ 0 ∧ o.kindOut = 0 ∧ o.moreOut = false ∧ t.kfd = s.kfd) ∨
    (keyProfile i = none ∧ o.err = 0 ∧ o.kindOut = 0) ∨
    ∃ p k, keyProfile i = some p ∧ t.kfd = s.kfd.set p k ∧
      ∃ o', KeyOutcome s.inputs o' k ∧ o = { o' with kstOut := kstOf t.kfd } := by
  obtain ⟨-, rfl⟩ := exec_eq_next_iff.mp h
  rw [settle_out, Option.some.injEq] at ho
  subst ho
  cases hr : reply s.cfg s.inputs i with
  | error e => exact .inl ⟨e.code_ne_zero, rfl, rfl, rfl⟩
  | ok q =>
    obtain ⟨o, m⟩ := q
    obtain ⟨hk, -, ho⟩ | ⟨p, k, hk, rfl, ho⟩ := reply_eq_ok hr
    · exact .inr (.inl ⟨hk, (err_of_reply_eq_ok hr).1, congrArg Outputs.kindOut ho⟩)
    · exact .inr (.inr ⟨p, k, hk, rfl, o, ho, rfl⟩)

/-- R71: a key-event outcome is not `NONE`. -/
theorem KeyOutcome.kindOut_ne_zero {i : Inputs} {o : Outputs} {k : KfdState}
    (h : KeyOutcome i o k) : o.kindOut ≠ 0 := by
  obtain ⟨hk, -⟩ | ⟨hk, -⟩ | ⟨hk, -⟩ := h.kind <;> rw [hk] <;> decide

/-- R72: `EMPTY` does not chain on. -/
theorem KeyOutcome.moreOut_of_empty {i : Inputs} {o : Outputs} {k : KfdState}
    (h : KeyOutcome i o k) (hk : o.kindOut = 2) : o.moreOut = false := by
  obtain ⟨hk', -⟩ | ⟨hk', -⟩ | ⟨-, -, -, -, -, hmore⟩ := h.kind
  · rw [hk'] at hk
    exact absurd hk (by decide)
  · rw [hk'] at hk
    exact absurd hk (by decide)
  · exact hmore

/-- R71: `NONE` stands on errors and on register commands, the loss signal beside other kinds. -/
theorem exec_kindOut {i : Instr} {s t : State} {o : Outputs} (h : exec i s = .next t)
    (ho : t.out = some o) : (o.kindOut = 0 ↔ keyProfile i = none ∨ o.err ≠ 0) ∧
      (o.kindOut ≠ 0 → o.lostOut = s.inputs.lostIn) := by
  obtain ⟨herr, hkind, -⟩ | ⟨hk, -, hkind⟩ | ⟨p, k, hk, -, o', ho', rfl⟩ := exec_result_cases h ho
  · exact ⟨⟨fun _ => .inr herr, fun _ => hkind⟩, fun hne => absurd hkind hne⟩
  · exact ⟨⟨fun _ => .inl hk, fun _ => hkind⟩, fun hne => absurd hkind hne⟩
  · refine ⟨⟨fun h0 => absurd h0 ho'.kindOut_ne_zero, fun hor => ?_⟩, fun _ => ho'.lost⟩
    rcases hor with hnone | herr
    · rw [hk] at hnone
      cases hnone
    · exact absurd ho'.err.1 herr

/-- Settles O50: the three kinds of result. -/
theorem kindNoneOnlyOnErrorsAndOtherCommands :
    Obligations.KindNoneOnlyOnErrorsAndOtherCommands :=
  fun _ _ _ _ h ho => exec_kindOut h ho

/-- R28: what a command drives on `kst_out` shows the decoder states it leaves. -/
theorem exec_showsStates {i : Instr} {s t : State} {o : Outputs} (h : exec i s = .next t)
    (ho : t.out = some o) : ShowsStates o t.kfd := by
  obtain ⟨-, rfl⟩ := exec_eq_next_iff.mp h
  rw [settle_out, Option.some.injEq] at ho
  subst ho
  exact showsStates_kstOf _ _

/-- Settles O51: an error leaves the states, and an outcome writes its verdict. -/
theorem nextDecoderStateFollowsMoreOut : Obligations.NextDecoderStateFollowsMoreOut := by
  intro i s t o p hp h ho
  obtain ⟨hps, hpc⟩ := exec_showsStates h ho
  have hkst : (o.kstOut.getLsbD 0 = true ↔ t.kfd.ps = .reading) ∧
      (o.kstOut.getLsbD 1 = true ↔ t.kfd.pc = .reading) :=
    ⟨by rw [hps, decide_eq_true_iff], by rw [hpc, decide_eq_true_iff]⟩
  obtain ⟨herr, -, hmore, hkfd⟩ | ⟨hk, -⟩ | ⟨q, k, hk, hkfd, o', ho', hout⟩ :=
    exec_result_cases h ho
  · exact ⟨fun _ => ⟨hkfd, hmore⟩, fun h0 => absurd h0 herr, fun _ => hmore, hkst⟩
  · rw [hp] at hk
    cases hk
  · obtain rfl : p = q := Option.some.inj (hp.symm.trans hk)
    refine ⟨fun hne => absurd ?_ hne, fun _ => ?_, fun h2 => ?_, hkst⟩
    · rw [hout]
      exact ho'.err.1
    · rw [hkfd, PerProfile.get_set_same, ho'.next, hout]
      rfl
    · rw [hout] at h2 ⊢
      exact ho'.moreOut_of_empty h2

/-- R78: no register command reads the event-lost signal. -/
theorem reply_lostIn_of_register {k : Instr} (hk : keyProfile k = none) (c : Cfg) (i : Inputs)
    (b : Bool) : reply c { i with lostIn := b } k = reply c i k := by
  cases k with
  | rlook p ctx addr => rfl
  | rdec p ctx addr => rfl
  | renc p ctx addr => rfl
  | kevS => cases hk
  | kevC => cases hk

/-- R78: a key-event command hands the event-lost signal on, and reads it for nothing else. -/
theorem reply_lostIn_of_key {k : Instr} {p : Profile} (hk : keyProfile k = some p) (c : Cfg)
    (i : Inputs) (b : Bool) : reply c { i with lostIn := b } k =
      (reply c i k).map (fun q => ({ q.1 with lostOut := b }, q.2)) := by
  cases k with
  | rlook p ctx addr => cases hk
  | rdec p ctx addr => cases hk
  | renc p ctx addr => cases hk
  | kevS =>
    simp only [reply, kevS]
    split_ifs <;> rfl
  | kevC =>
    simp only [reply, kevC]
    split_ifs <;> rfl

/-- A command on other inputs is the reply to them. -/
theorem exec_on_inputs {s : State} (i : Instr) (j : Inputs) (hw : cfgWf s.cfg = true) :
    exec i { s with inputs := j } = .next (settle { s with inputs := j } (reply s.cfg j i)) :=
  exec_of_wf i hw

/-- Settles O52: an error and a register command ignore the signal, and an outcome hands it on. -/
theorem lostSignalChangesLostOutAlone : Obligations.LostSignalChangesLostOutAlone := by
  intro i s t o b h ho
  obtain ⟨hnone, hkind⟩ := exec_kindOut h ho
  obtain ⟨hw, rfl⟩ := exec_eq_next_iff.mp h
  rw [settle_out, Option.some.injEq] at ho
  subst ho
  refine ⟨_, _, exec_on_inputs i _ hw, settle_out _ _, ?_⟩
  cases hk : keyProfile i with
  | none =>
    rw [reply_lostIn_of_register hk]
    exact ⟨rfl, rfl, fun hne => absurd (hnone.mpr (.inl hk)) hne⟩
  | some p =>
    rw [reply_lostIn_of_key hk]
    cases hr : reply s.cfg s.inputs i with
    | error e => exact ⟨rfl, rfl, fun hne => absurd rfl hne⟩
    | ok q =>
      rw [hr] at hkind
      obtain ⟨o, _ | ⟨p', k'⟩⟩ := q
      · exact ⟨rfl, rfl, fun hne => ⟨hkind hne, rfl⟩⟩
      · exact ⟨rfl, rfl, fun hne => ⟨hkind hne, rfl⟩⟩

/-- R80: `KEV.C` reads the count through its low `COUNT_W` bits only. -/
theorem reply_kevC_countIn {c : Cfg} {i : Inputs} {count : Byte}
    (hn : eventCount c count = eventCount c i.countIn) :
    reply c { i with countIn := count } .kevC = reply c i .kevC := by
  by_cases hbus : i.busErrIn = true
  · rw [reply_of_busErr hbus, reply_of_busErr (i := { i with countIn := count }) hbus]
  · have hb : i.busErrIn = false := Bool.eq_false_iff.mpr hbus
    by_cases h0 : eventCount c i.countIn = 0
    · rw [reply_kevC_of_zero hb h0,
        reply_kevC_of_zero (i := { i with countIn := count }) hb (hn.trans h0)]
    · by_cases hv : i.bvIn = 0b01
      · rw [reply_kevC_of_count hb hv h0,
          reply_kevC_of_count (i := { i with countIn := count }) hb hv (hn.trans_ne h0), hn]
      · rw [reply_kevC_of_wrong_length hb h0 hv,
          reply_kevC_of_wrong_length (i := { i with countIn := count }) hb (hn.trans_ne h0) hv]

/-- Settles O53: the reply is the same, so the result and the decoder states are. -/
theorem countBitsAboveItsWidthAreIgnored : Obligations.CountBitsAboveItsWidthAreIgnored :=
  fun _ _ _ h hcount => exec_next_of_reply_eq h (reply_kevC_countIn hcount)

/-! ### Two key events of one profile (R45) -/

/-- A key on profile PS, with or without more to follow. -/
def keyRead (more : Bool) : Inputs :=
  { Inputs.zero with cmd := 0x8000, bvIn := 0b01, moreIn := more }

/-- An event on profile PC, with its count. -/
def countRead (count : Byte) : Inputs :=
  { Inputs.zero with cmd := 0x9000, bvIn := 0b01, countIn := count }

theorem afterCommand_keyRead (s : State) (more : Bool) :
    (afterCommand s (keyRead more)).kfd.ps = nextKfd more := by
  have hd : decode (keyRead more).cmd = .ok .kevS := decode_encode .kevS
  have hc : colS (lowLane (keyRead more).rawIn) ≠ 15#4 := by
    change colS (lowLane 0) ≠ 15#4
    decide
  rw [afterCommand_kfd, replyTo_of_decode hd, reply_kevS_of_key rfl rfl hc]
  rfl

theorem afterCommand_countRead (s : State) {count : Byte} (hn : eventCount s.cfg count ≠ 0) :
    (afterCommand s (countRead count)).kfd.pc =
      nextKfd (decide (2 ≤ eventCount s.cfg count)) := by
  have hd : decode (countRead count).cmd = .ok .kevC := decode_encode .kevC
  rw [afterCommand_kfd, replyTo_of_decode hd, reply_kevC_of_count rfl rfl hn]
  rfl

/-- A count below `2^COUNT_W` is read whole (R80). -/
theorem eventCount_of_lt {c : Cfg} {count : Byte} (h : count.toNat < 2 ^ c.countW) :
    eventCount c count = count.toNat := Nat.mod_eq_of_lt h

/-- Settles O20: of two reads, one with more to follow and one without, the last one decides. -/
theorem keyEventsOfOneProfileDoNotCommute : Obligations.KeyEventsOfOneProfileDoNotCommute := by
  intro s hw
  refine ⟨⟨keyRead true, keyRead false, rfl, rfl, _, _, _, _, runCommands_pair hw _ _,
    runCommands_pair hw _ _, ?_⟩, fun hwide => ⟨countRead 2, countRead 1, rfl, rfl, _, _, _, _,
    runCommands_pair hw _ _, runCommands_pair hw _ _, ?_⟩⟩
  · rw [afterCommand_keyRead, afterCommand_keyRead]
    decide
  · have hpow : 2 ^ 2 ≤ 2 ^ s.cfg.countW := Nat.pow_le_pow_right (by decide) hwide
    have h1 : eventCount s.cfg 1 = 1 := eventCount_of_lt (by change 1 < _; omega)
    have h2 : eventCount s.cfg 2 = 2 := eventCount_of_lt (by change 2 < _; omega)
    rw [afterCommand_countRead _ (by rw [afterCommand_cfg, h1]; decide),
      afterCommand_countRead _ (by rw [afterCommand_cfg, h2]; decide), afterCommand_cfg,
      afterCommand_cfg, h1, h2]
    decide

end Sys2Proof.Machine
end

section
/-! PROOFS. Assembler lines: operands in the command word, and register names (30_encoding.md
R53). -/

namespace Sys2Proof.Machine

/-- R53: a location operand in range stands for its pair. -/
theorem resolve_pair {ctx addr : Nat} (c : Cfg) (p : Profile)
    (h : (AsmLoc.pair ctx addr).wf = true) :
    resolve c p (.pair ctx addr) = some (BitVec.ofNat 2 ctx, BitVec.ofNat 8 addr) := by
  rw [resolve, if_pos h]

theorem resolve_of_not_wf {l : AsmLoc} (c : Cfg) (p : Profile) (h : l.wf = false) :
    resolve c p l = none := by
  rw [resolve.eq_def, if_neg (Bool.eq_false_iff.mp h)]

/-- R53: the ranges of numeric operands. -/
theorem wf_pair_iff {ctx addr : Nat} :
    (AsmLoc.pair ctx addr).wf = true ↔ ctx ≤ 3 ∧ addr ≤ 255 := by
  simp [AsmLoc.wf, AsmLoc.ctxOk, AsmLoc.addrOk]

/-- R46: operands in range stand in the word as they are written. -/
theorem packWord_ofNat {ctx addr : Nat} (op : BitVec 3) (p : Profile)
    (h : (AsmLoc.pair ctx addr).wf = true) :
    (packWord op p (BitVec.ofNat 2 ctx) (BitVec.ofNat 8 addr)).toNat =
      op.toNat * 8192 + (if p = .pc then 4096 else 0) + ctx * 1024 + addr := by
  obtain ⟨hctx, haddr⟩ := wf_pair_iff.mp h
  have hbit : p.bit.toNat * 4096 = if p = .pc then 4096 else 0 := by cases p <;> rfl
  rw [packWord_toNat, BitVec.toNat_ofNat, BitVec.toNat_ofNat, Nat.mod_eq_of_lt (by omega),
    Nat.mod_eq_of_lt (by omega), hbit]

/-- The three register commands of a profile, as an assembler line and as a command (R53). -/
def IsRegisterLine (p : Profile) (line : AsmLoc → Asm) (cmd : Ctx → Addr → Instr) : Prop :=
  ∀ (c : Cfg) (l : AsmLoc), (line l).wf = l.wf ∧
    assembleLine c (line l) = (resolve c p l).map (fun q => cmd q.1 q.2)

theorem isRegisterLine_rlook (p : Profile) : IsRegisterLine p (Asm.rlook p) (Instr.rlook p) :=
  fun _ _ => ⟨rfl, rfl⟩
theorem isRegisterLine_rdec (p : Profile) : IsRegisterLine p (Asm.rdec p) (Instr.rdec p) :=
  fun _ _ => ⟨rfl, rfl⟩
theorem isRegisterLine_renc (p : Profile) : IsRegisterLine p (Asm.renc p) (Instr.renc p) :=
  fun _ _ => ⟨rfl, rfl⟩

/-- R53, R46 for one register command. -/
theorem assembleLine_pair {p : Profile} {line : AsmLoc → Asm} {cmd : Ctx → Addr → Instr}
    {op : BitVec 3} (hline : IsRegisterLine p line cmd)
    (hop : ∀ ctx addr, encode (cmd ctx addr) = packWord op p ctx addr) (c : Cfg) (ctx addr : Nat) :
    ((line (.pair ctx addr)).wf = true → ∃ i, assembleLine c (line (.pair ctx addr)) = some i ∧
      (encode i).toNat = op.toNat * 8192 + (if p = .pc then 4096 else 0) + ctx * 1024 + addr) ∧
    ((line (.pair ctx addr)).wf = false → assembleLine c (line (.pair ctx addr)) = none) := by
  obtain ⟨hwf, hasm⟩ := hline c (.pair ctx addr)
  rw [hwf, hasm]
  refine ⟨fun h => ⟨_, by rw [resolve_pair c p h]; rfl, ?_⟩, fun h => ?_⟩
  · rw [hop, packWord_ofNat op p h]
  · rw [resolve_of_not_wf c p h]
    rfl

/-- Settles O54: each of the three lines by its opcode. -/
theorem assembledOperandsStandInTheWord : Obligations.AssembledOperandsStandInTheWord := by
  intro c p ctx addr
  refine ⟨?_, ?_⟩
  · simp only [List.forall_mem_cons, List.not_mem_nil, false_implies, implies_true, and_true]
    exact ⟨assembleLine_pair (op := 1) (isRegisterLine_rlook p) (fun _ _ => rfl) c ctx addr,
      assembleLine_pair (op := 2) (isRegisterLine_rdec p) (fun _ _ => rfl) c ctx addr,
      assembleLine_pair (op := 3) (isRegisterLine_renc p) (fun _ _ => rfl) c ctx addr⟩
  · cases p with
    | ps => exact ⟨.kevS, rfl, rfl⟩
    | pc => exact ⟨.kevC, rfl, rfl⟩

/-! ### Register names (R53, R15) -/

/-- R15: of one map, a register's name is its own. -/
theorem eq_of_name_eq {c : Cfg} {p : Profile} {r r' : RegEntry} (hw : cfgWf c = true)
    (hr : MapHolds c p r) (hr' : MapHolds c p r') (hn : r.name = r'.name) : r = r' := by
  have hunique : namesUnique c p = true := by
    simp only [cfgWf, Bool.and_eq_true] at hw
    obtain ⟨⟨⟨⟨⟨⟨-, hps⟩, hpc⟩, -⟩, -⟩, -⟩, -⟩ := hw
    cases p with
    | ps => exact hps
    | pc => exact hpc
  have hsymm : Std.Symm (fun a b : RegEntry => a.name = b.name → a.id = b.id) :=
    ⟨fun _ _ h hn => (h hn.symm).symm⟩
  have hid : r.id = r'.id :=
    List.Pairwise.forall_of_forall (fun _ _ _ => rfl) (of_decide_eq_true hunique)
      ((mem_registersOf hw).mpr hr) ((mem_registersOf hw).mpr hr') hn
  exact Option.some.inj ((entryOf_of_mem hw hr.1).symm.trans (hid ▸ entryOf_of_mem hw hr'.1))

variable {c : Cfg} {p : Profile} {e : MapEntry} {r : RegEntry}

/-- The entry's register is named `n`. -/
def isNamed (c : Cfg) (n : String) (e : MapEntry) : Bool :=
  (entryOf c e.reg).any (fun r => r.name == n)

/-- R53: a name's places are the pairs of the entries so named. -/
theorem placesOf_eq_map_filter (c : Cfg) (p : Profile) (n : String) : placesOf c p n =
    ((c.addressMap.get p).filter (isNamed c n)).map (fun e => (e.ctx, e.addr)) := by
  rw [placesOf]
  induction c.addressMap.get p with
  | nil => rfl
  | cons e es ih =>
    cases hent : entryOf c e.reg with
    | none => simpa [hent, isNamed] using ih
    | some r =>
      by_cases hn : r.name = n
      · simpa [hent, isNamed, hn] using ih
      · simpa [hent, isNamed, hn] using ih

/-- R15: the entries named as a register of the map are those of the register. -/
theorem isNamed_iff (hw : cfgWf c = true) (hr : MapHolds c p r) (he : e ∈ c.addressMap.get p) :
    isNamed c r.name e = true ↔ e.reg = r.id := by
  rw [isNamed, Option.any_eq_true]
  constructor
  · rintro ⟨r', hent, hn⟩
    obtain ⟨hm, hid⟩ := mem_of_entryOf hent
    rw [← hid, eq_of_name_eq hw ⟨hm, e, he, hid.symm⟩ hr (beq_iff_eq.mp hn)]
  · intro hid
    exact ⟨r, hid ▸ entryOf_of_mem hw hr.1, beq_self_eq_true _⟩

/-- The places of a register's name are those of its entries. -/
theorem mem_placesOf (hw : cfgWf c = true) (hr : MapHolds c p r) {q : Ctx × Addr} :
    q ∈ placesOf c p r.name ↔
      ∃ e ∈ c.addressMap.get p, e.reg = r.id ∧ (e.ctx, e.addr) = q := by
  rw [placesOf_eq_map_filter, List.mem_map]
  refine exists_congr fun e => ?_
  rw [List.mem_filter, and_assoc]
  exact and_congr_right fun he => and_congr_left' (isNamed_iff hw hr he)

/-- R15: a map's pairs are distinct, so a name's places are. -/
theorem nodup_placesOf (hw : cfgWf c = true) (n : String) : (placesOf c p n).Nodup := by
  rw [placesOf_eq_map_filter]
  refine (((cfgFacts_of_wf hw).mapKeys p).filter _).map _ (fun a b hab heq => hab ?_)
  obtain ⟨hc, ha⟩ := Prod.mk.inj heq
  exact ⟨ha, hc⟩

theorem onlyPlace_of_unique {l : List (Ctx × Addr)} {q : Ctx × Addr} (hnodup : l.Nodup)
    (hq : q ∈ l) (hall : ∀ q' ∈ l, q' = q) : onlyPlace l = some q := by
  match l with
  | [] => cases hq
  | [a] => rw [onlyPlace, hall a (by simp)]
  | a :: b :: rest =>
    have hab : a ≠ b := by simp at hnodup; exact hnodup.1.1
    exact absurd ((hall a (by simp)).trans (hall b (by simp)).symm) hab

theorem onlyPlace_of_two {l : List (Ctx × Addr)} {q q' : Ctx × Addr} (hq : q ∈ l) (hq' : q' ∈ l)
    (hne : q' ≠ q) : onlyPlace l = none := by
  match l with
  | [] => rfl
  | [a] =>
    rw [List.mem_singleton] at hq hq'
    exact absurd (hq'.trans hq.symm) hne
  | a :: b :: rest => rfl

/-- R53: a name alone. -/
theorem resolve_name (c : Cfg) (p : Profile) (n : String) :
    resolve c p (.name n) = onlyPlace (placesOf c p n) := rfl

/-- R53: a name beside a context. -/
theorem resolve_named (c : Cfg) (p : Profile) (ctx : Ctx) (n : String) :
    resolve c p (.named ctx.toNat n) =
      onlyPlace ((placesOf c p n).filter (fun q => q.1 == ctx)) := by
  have hwf : (AsmLoc.named ctx.toNat n).wf = true := by
    have := ctx.isLt
    simp only [AsmLoc.wf, AsmLoc.ctxOk, AsmLoc.addrOk, Bool.and_true, decide_eq_true_eq]
    omega
  rw [resolve, if_pos hwf, BitVec.ofNat_toNat, BitVec.setWidth_eq]

/-- Two entries of one register are at different places. -/
theorem place_ne {e e' : MapEntry} (hreg : e'.reg = e.reg) (hne : e' ≠ e) :
    (e'.ctx, e'.addr) ≠ (e.ctx, e.addr) := fun heq => hne (by
  obtain ⟨hc, ha⟩ := Prod.mk.inj heq
  cases e
  cases e'
  cases hc
  cases ha
  cases hreg
  rfl)

section OnePlace

variable (hw : cfgWf c = true) (he : e ∈ c.addressMap.get p) (hr : r ∈ c.regTable)
  (hid : r.id = e.reg)
include hw he hr hid

/-- R53: beside a context where its register has one address, a name stands for that place. -/
theorem resolve_named_of_unique
    (hone : ∀ e' ∈ c.addressMap.get p, e'.reg = e.reg → e'.ctx = e.ctx → e' = e) :
    resolve c p (.named e.ctx.toNat r.name) = some (e.ctx, e.addr) := by
  have hmem {q : Ctx × Addr} := mem_placesOf hw ⟨hr, e, he, hid.symm⟩ (q := q)
  rw [resolve_named]
  refine onlyPlace_of_unique ((nodup_placesOf hw r.name).filter _) ?_ (fun q hq => ?_)
  · exact List.mem_filter.mpr ⟨hmem.mpr ⟨e, he, hid.symm, rfl⟩, beq_self_eq_true _⟩
  · obtain ⟨hq, hctx⟩ := List.mem_filter.mp hq
    obtain ⟨e', he', hreg, rfl⟩ := hmem.mp hq
    rw [hone e' he' (hreg.trans hid) (by simpa using hctx)]

/-- R53: alone, the name of a register with one pair stands for that pair. -/
theorem resolve_name_of_unique (hone : ∀ e' ∈ c.addressMap.get p, e'.reg = e.reg → e' = e) :
    resolve c p (.name r.name) = some (e.ctx, e.addr) := by
  have hmem {q : Ctx × Addr} := mem_placesOf hw ⟨hr, e, he, hid.symm⟩ (q := q)
  rw [resolve_name]
  refine onlyPlace_of_unique (nodup_placesOf hw r.name) (hmem.mpr ⟨e, he, hid.symm, rfl⟩)
    (fun q hq => ?_)
  obtain ⟨e', he', hreg, rfl⟩ := hmem.mp hq
  rw [hone e' he' (hreg.trans hid)]

variable {e' : MapEntry} (he' : e' ∈ c.addressMap.get p) (hreg : e'.reg = e.reg) (hne : e' ≠ e)
include he' hreg hne

theorem resolve_named_of_two (hctx : e'.ctx = e.ctx) :
    resolve c p (.named e.ctx.toNat r.name) = none := by
  have hmem {q : Ctx × Addr} := mem_placesOf hw ⟨hr, e, he, hid.symm⟩ (q := q)
  rw [resolve_named]
  refine onlyPlace_of_two (q := (e.ctx, e.addr)) (q' := (e'.ctx, e'.addr)) ?_ ?_
    (place_ne hreg hne)
  · exact List.mem_filter.mpr ⟨hmem.mpr ⟨e, he, hid.symm, rfl⟩, beq_self_eq_true _⟩
  · exact List.mem_filter.mpr ⟨hmem.mpr ⟨e', he', hreg.trans hid.symm, rfl⟩, beq_iff_eq.mpr hctx⟩

theorem resolve_name_of_two : resolve c p (.name r.name) = none := by
  have hmem {q : Ctx × Addr} := mem_placesOf hw ⟨hr, e, he, hid.symm⟩ (q := q)
  rw [resolve_name]
  exact onlyPlace_of_two (hmem.mpr ⟨e, he, hid.symm, rfl⟩)
    (hmem.mpr ⟨e', he', hreg.trans hid.symm, rfl⟩) (place_ne hreg hne)

end OnePlace

/-- Settles O55: a name's places are its register's entries, and one place is needed. -/
theorem registerNamesAssembleToTheirPlace : Obligations.RegisterNamesAssembleToTheirPlace := by
  intro c p e r hw he hr hid q hq
  have hline : IsRegisterLine p q.1 q.2 := by
    simp only [List.mem_cons, List.not_mem_nil, or_false] at hq
    rcases hq with rfl | rfl | rfl
    exacts [isRegisterLine_rlook p, isRegisterLine_rdec p, isRegisterLine_renc p]
  simp only [fun l => (hline c l).2]
  refine ⟨fun hone => ?_, fun hone => ?_, fun e' he' hreg hne => ⟨fun hctx => ?_, ?_⟩⟩
  · rw [resolve_named_of_unique hw he hr hid hone]
    rfl
  · rw [resolve_name_of_unique hw he hr hid hone]
    rfl
  · rw [resolve_named_of_two hw he hr hid he' hreg hne hctx]
    rfl
  · rw [resolve_name_of_two hw he hr hid he' hreg hne]
    rfl

end Sys2Proof.Machine
end

section
/-! PROOFS. What an admitted configuration holds (10_state.md R15 to R23). -/

namespace Sys2Proof.Machine

/-- The parts of `cfgWf` that say which registers a configuration holds. -/
structure SourceRegisters (c : Cfg) : Prop where
  pairs : pairRegsOk c = true
  fixed : fixedLayoutsPresent c = true
  irqst : irqstOk c = true
  shared : aliasFieldPresent c = true

theorem sourceRegisters_of_wf {c : Cfg} (h : cfgWf c = true) : SourceRegisters c := by
  simp only [cfgWf, Bool.and_eq_true] at h
  obtain ⟨⟨⟨⟨⟨⟨⟨⟨⟨⟨⟨⟨⟨⟨-, -⟩, -⟩, pairs⟩, -⟩, fixed⟩, -⟩, -⟩, -⟩, -⟩, -⟩, irqst⟩, shared⟩, -⟩, -⟩ := h
  exact ⟨pairs, fixed, irqst, shared⟩

theorem presentAs_iff {rs : List RegEntry} {n : String} {L : Layout} :
    presentAs rs n L = true ↔
      (∃ r ∈ rs, r.name = n) ∧ ∀ r ∈ rs, r.name = n → r.layout = L := by
  simp [presentAs, imp_iff_not_or]

/-- A register that a map reaches and the table lists is held by the map. -/
theorem mapHolds_of_reaches {c : Cfg} {p : Profile} {id : RegId}
    (hl : (layoutOf c id).isSome = true) (hreach : reaches c p id = true) : ∃ r, MapHolds c p r ∧ r.id = id := by
  rw [layoutOf, Option.isSome_map] at hl
  obtain ⟨r, hr⟩ := Option.isSome_iff_exists.mp hl
  obtain ⟨hm, rfl⟩ := mem_of_entryOf hr
  obtain ⟨e, he, hreg⟩ := List.any_eq_true.mp hreach
  exact ⟨r, ⟨hm, e, he, beq_iff_eq.mp hreg⟩, rfl⟩

theorem isPairReg_iff {c : Cfg} {id : RegId} :
    isPairReg c id = true ↔ id = c.pairRegs.first ∨ id = c.pairRegs.second := by
  simp [isPairReg]

/-- R22: two codes with one state, in the map written out. -/
theorem sharedState_codes {f : Field} (h : isAliasField f = true) (ht : enumTotal f = true) :
    f.w = 2 ∧ ∃ map : List Word, f.kind = .enum map ∧ map.length = 4 ∧
      ∃ j k, j < k ∧ k < 4 ∧ map[j]? = map[k]? := by
  cases hk : f.kind with
  | num => simp [isAliasField, hk] at h
  | rsv => simp [isAliasField, hk] at h
  | enum map =>
    simp only [isAliasField, hk, Bool.and_eq_true, beq_iff_eq, Bool.not_eq_true',
      decide_eq_false_iff_not] at h
    obtain ⟨h2, hdup⟩ := h
    have hlen : map.length = 4 := by simpa [enumTotal, hk, h2] using ht
    rw [List.nodup_iff_getElem?_ne_getElem?] at hdup
    push Not at hdup
    obtain ⟨j, k, hjk, hkl, heq⟩ := hdup
    exact ⟨h2, map, rfl, hlen, j, k, hjk, hlen ▸ hkl, heq⟩

theorem eq_otherProfile_of_ne : ∀ {p q : Profile}, p ≠ q → p = otherProfile q
  | .ps, .ps, h => absurd rfl h
  | .ps, .pc, _ => rfl
  | .pc, .ps, _ => rfl
  | .pc, .pc, h => absurd rfl h

section Admitted

variable {c : Cfg} (hw : cfgWf c = true)
include hw

theorem mem_registersOf_iff {p : Profile} {r : RegEntry} :
    r ∈ registersOf c p ↔ MapHolds c p r := mem_registersOf hw

theorem mem_registers_iff {r : RegEntry} : r ∈ registers c ↔ ∃ p, MapHolds c p r := by
  rw [registers, List.mem_append, mem_registersOf_iff hw, mem_registersOf_iff hw]
  refine ⟨fun h => h.elim (fun h => ⟨_, h⟩) (fun h => ⟨_, h⟩), fun ⟨p, h⟩ => ?_⟩
  cases p with
  | ps => exact .inl h
  | pc => exact .inr h

/-- A register present in the maps under a name, said on the lists. -/
theorem mapHolds_of_presentAs {n : String} {L : Layout} (h : presentAs (registers c) n L = true) :
    (∃ p r, MapHolds c p r ∧ r.name = n) ∧
      ∀ p r, MapHolds c p r → r.name = n → r.layout = L := by
  obtain ⟨⟨r, hr, hn⟩, hall⟩ := presentAs_iff.mp h
  obtain ⟨p, hp⟩ := (mem_registers_iff hw).mp hr
  exact ⟨⟨p, r, hp, hn⟩, fun p r hm => hall r ((mem_registers_iff hw).mpr ⟨p, hm⟩)⟩

/-- R18. -/
theorem kbdsize_present : (∃ p r, MapHolds c p r ∧ r.name = "KBDSIZE") ∧
    ∀ p r, MapHolds c p r → r.name = "KBDSIZE" → r.layout = kbdsizeLayout :=
  mapHolds_of_presentAs hw (Bool.and_eq_true_iff.mp (sourceRegisters_of_wf hw).fixed).1

/-- R19. -/
theorem evtcode_present :
    ∃ r, MapHolds c .ps r ∧ r.name = "EVTCODE" ∧ r.layout = evtcodeLayout := by
  obtain ⟨⟨r, hr, hn⟩, hall⟩ :=
    presentAs_iff.mp (Bool.and_eq_true_iff.mp (sourceRegisters_of_wf hw).fixed).2
  exact ⟨r, (mem_registersOf_iff hw).mp hr, hn, hall r hr hn⟩

/-- R20: the register. -/
theorem irqst_present : (∃ p r, MapHolds c p r ∧ r.name = "IRQST") ∧
    ∀ p r, MapHolds c p r → r.name = "IRQST" → r.layout = c.irqstLayout :=
  mapHolds_of_presentAs hw (Bool.and_eq_true_iff.mp (sourceRegisters_of_wf hw).irqst).1

/-- R20: its four flags. -/
theorem irqst_flags : c.irqstLayout.width = 8 ∧
    ∀ n ∈ ["GPIO", "TIMER", "KEYBOARD", "POWER_FAIL"],
      ∃ f ∈ c.irqstLayout.fields, f.name = n ∧ f.w = 1 ∧ f.kind = .num := by
  obtain ⟨hwidth, hflags⟩ := Bool.and_eq_true_iff.mp
    (Bool.and_eq_true_iff.mp (sourceRegisters_of_wf hw).irqst).2
  refine ⟨beq_iff_eq.mp hwidth, fun n hn => ?_⟩
  obtain ⟨f, hf, hok⟩ := List.any_eq_true.mp (List.all_eq_true.mp hflags n hn)
  simp only [Bool.and_eq_true, beq_iff_eq, decide_eq_true_eq] at hok
  exact ⟨f, hf, hok.1.1, hok.1.2, hok.2⟩

/-- An id the table lists is one row's. -/
theorem eq_of_id_eq {r r' : RegEntry} (hr : r ∈ c.regTable) (hr' : r' ∈ c.regTable)
    (h : r.id = r'.id) : r = r' :=
  Option.some.inj ((entryOf_of_mem hw hr).symm.trans (h ▸ entryOf_of_mem hw hr'))

/-- R17 (f), R21: the two 16-bit registers, and no third. -/
theorem pair_present : ∃ a b, MapHolds c c.pairRegs.profile a ∧ MapHolds c c.pairRegs.profile b ∧
    a ≠ b ∧ a.layout.width = 16 ∧ b.layout.width = 16 ∧
    (∀ r ∈ c.regTable, r.layout.width = 16 → r = a ∨ r = b) ∧
    ∀ p r, MapHolds c p r → r.layout.width = 16 → p = c.pairRegs.profile := by
  have h := (sourceRegisters_of_wf hw).pairs
  simp only [pairRegsOk, Bool.and_eq_true, bne_iff_ne, List.all_eq_true, beq_iff_eq,
    Bool.not_eq_true'] at h
  obtain ⟨⟨⟨⟨⟨⟨hne, hl₁⟩, hl₂⟩, hr₁⟩, hr₂⟩, hwidth⟩, hother⟩ := h
  obtain ⟨a, ha, haid⟩ := mapHolds_of_reaches hl₁ hr₁
  obtain ⟨b, hb, hbid⟩ := mapHolds_of_reaches hl₂ hr₂
  have isPair {r : RegEntry} (hr : r ∈ c.regTable) :
      r.layout.width = 16 ↔ isPairReg c r.id = true := by
    rw [hwidth r hr]
    cases isPairReg c r.id <;> simp
  refine ⟨a, b, ha, hb, fun hab => hne ?_, (isPair ha.1).mpr (isPairReg_iff.mpr (.inl haid)),
    (isPair hb.1).mpr (isPairReg_iff.mpr (.inr hbid)), fun r hr h16 => ?_, fun p r hr h16 => ?_⟩
  · rw [← haid, ← hbid, hab]
  · exact (isPairReg_iff.mp ((isPair hr).mp h16)).imp
      (fun h => eq_of_id_eq hw hr ha.1 (h.trans haid.symm))
      (fun h => eq_of_id_eq hw hr hb.1 (h.trans hbid.symm))
  · obtain ⟨hm, e, he, hreg⟩ := hr
    by_contra hp
    have hno := hother e (eq_otherProfile_of_ne hp ▸ he)
    rw [hreg, (isPair hm).mp h16] at hno
    cases hno

/-- R22: a map holds a register with such a field. -/
theorem sharedState_present : ∃ p r, MapHolds c p r ∧ ∃ f ∈ r.layout.fields, f.w = 2 ∧
    ∃ map : List Word, f.kind = .enum map ∧ map.length = 4 ∧
      ∃ j k, j < k ∧ k < 4 ∧ map[j]? = map[k]? := by
  obtain ⟨r, hr, hany⟩ := List.any_eq_true.mp (sourceRegisters_of_wf hw).shared
  obtain ⟨f, hf, hshared⟩ := List.any_eq_true.mp hany
  obtain ⟨p, hp⟩ := (mem_registers_iff hw).mp hr
  have hL := tiled_of_layoutOk ((cfgFacts_of_wf hw).layouts r hp.1)
  exact ⟨p, r, hp, f, hf, sharedState_codes hshared (hL.enums f hf)⟩

end Admitted

/-- Settles O56: by `busAddr7_toNat`. -/
theorem busAddressIsTheDatasheetAddressShiftedOnce :
    Obligations.BusAddressIsTheDatasheetAddressShiftedOnce :=
  fun _ p hw => busAddr7_toNat p hw

/-- Settles O57: one check of the configuration for each clause. -/
theorem admittedConfigurationsHoldTheSourcesRegisters :
    Obligations.AdmittedConfigurationsHoldTheSourcesRegisters := fun _ hw =>
  ⟨fun _ _ _ hr hr' hn => eq_of_name_eq hw hr hr' hn,
    (kbdsize_present hw).1, (kbdsize_present hw).2,
    evtcode_present hw, (irqst_present hw).1, (irqst_present hw).2, (irqst_flags hw).1,
    (irqst_flags hw).2, pair_present hw, sharedState_present hw⟩

end Sys2Proof.Machine
end
